-- ==== Sys2Proof/Word.lean ====
section
/-! DEFINITION. The word and the field of the picojit VM core (spec/00_scope.md R5, R7, R8; spec/30_encoding.md R51).
`W` = 32 and `FW` = 4 are fixed for every configuration (R6). -/

namespace Sys2Proof

/-- A `W`-bit pattern, `W` = 32: a code-memory word, a register's contents, a wide immediate (R5, decision D2). -/
abbrev Word := BitVec 32

/-- An `FW`-bit field, `FW` = 4: the opcode, arg1 or arg2 of an instruction word (R5, R51). -/
abbrev Nibble := BitVec 4

end Sys2Proof
end

