-- ==== Sys2Proof/Machine/Operands.lean ====
section
/-! DEFINITION. The number readings of spec/00_scope.md R8, the operands of spec/30_encoding.md R59, R60 and R62, and the adder
unit of spec/42_arithmetic.md R84. -/

namespace Sys2Proof.Machine

/-- `signed_W(b)`: the two's-complement reading of a pattern (R8). -/
def signedW (b : Word) : Int := b.toInt

/-- `bits_W(v)`: the pattern of an integer, `v mod 2^W` (R8). -/
def bitsW (v : Int) : Word := BitVec.ofInt 32 v

/-- `zext_W(f)`: a field as a 32-bit value, the high bits zero (R8). -/
def zextW (f : Nibble) : Word := f.setWidth 32

/-- `sext_N(v)` of a 4-bit field. R8 defines it for completeness and no rule of this hardware uses it (conflict C3). -/
def sextN (f : Nibble) : Int := f.toInt

/-- The narrow immediate of ADD, LOAD and JMPEQ: `zext_W(a2)`, 0 to 15, never sign-extended (R59, C3). -/
def imm4 (n : Nibble) : Word := zextW n

/-- The target of CNDPC and JMP: `a1` as an absolute code index (R60). -/
def target (t : Nibble) : Nat := t.toNat

/-- What a wide immediate writes to a register: `signed_W(immW)`, its pattern unchanged (R62, decision D4). -/
def wideValue (v : Word) : Word := v

/-- The adder unit: `signed_W(bits_W(a + zext_W(b)))`, the exact sum of the signed register operand and the unsigned
nibble, narrowed to 32 bits (R84, R86, decision D3). -/
def adder (a : Word) (b : Nibble) : Word := bitsW (signedW a + (zextW b).toNat)

end Sys2Proof.Machine
end

