-- ==== Sys2Proof/Config.lean ====
section
/-! DEFINITION. What a configuration of the picojit VM core fixes (spec/00_scope.md R5, R6) and the one value the spec
leaves open, condpc0. The widths `W` and `FW` are the types of Word.lean. -/

namespace Sys2Proof

/-- NREG of the reference configuration (R5). -/
def Config.nregReference : Nat := 4

/-- CODE_CAP of the reference configuration, in words (R5). -/
def Config.codeCapReference : Nat := 1024

/-- The range of the construction parameter NREG: 1 to 16 (R5, decision D15; outside it construction is refused, U10). -/
def Config.nregValid (nreg : Nat) : Bool := decide (1 ≤ nreg) && decide (nreg ≤ 16)

/-- condpc0, the value of condpc at reset: "a launch parameter (a draw): any natural number" (R5, R23, R120, decision D6).
It has no body, so nothing can be proved of its value. Log entry 1. -/
opaque Config.condpc0 : Nat

end Sys2Proof
end

