-- ==== Sys2Proof/Machine/State.lean ====
section
/-! DEFINITION. The architectural state (spec/10_state.md R13: these seven parts and nothing else), the ways a step can
answer no next state, and the state after reset (R31). -/

namespace Sys2Proof.Machine

/-- The run state (R24). HALTED and FAULTED are terminal. -/
inductive RunState where
  | running
  | halted
  | faulted
  deriving DecidableEq, Repr

/-- The three faults of the hardware (R97). -/
inductive FaultKind where
  /-- The opcode field is 10 to 15 (R98). -/
  | invalidOpcode
  /-- `pc`, or `pc + 1` for a wide immediate, is no index of code memory (R99). -/
  | addressOutOfRange
  /-- A register field the instruction uses is NREG or more (R100). -/
  | registerOutOfRange
  deriving DecidableEq, Repr

/-- The fault record's triple (R25, R101). -/
structure FaultRecord where
  kind : FaultKind
  /-- The pc when the faulting step began. -/
  fpc : Nat
  /-- The opcode field for InvalidOpcode, 0 otherwise. -/
  fopcode : Nibble
  deriving DecidableEq, Repr

/-- Code memory: its words in index order (R29, R37; log entry 5). Its length is CODE_LEN. -/
abbrev Memory := List Word

/-- What the spec asks of code memory: at most `cap` = CODE_CAP words (R5, R38). -/
def Memory.wf (cap : Nat) (m : Memory) : Bool := decide (m.length ≤ cap)

/-- The architectural state (R13). -/
structure State where
  /-- The register file x[0..NREG-1], each a 32-bit pattern read as signed (R14). NREG is the length. -/
  regs : List Word
  /-- The code memory (R29). -/
  code : Memory
  /-- The program counter, a word index that never wraps (R19, R20). -/
  pc : Nat
  /-- The branch-target register (R23). -/
  condpc : Nat
  /-- The run state (R24). -/
  run : RunState
  /-- The fault record (R25). -/
  fault : Option FaultRecord
  /-- The output stream, oldest value first (R28). -/
  out : List Word
  deriving DecidableEq, Repr

/-- Why `step` answers no next state. These are not the hardware's faults: taking one of those is a completed step with a
next state (R105). Both are raised by `step` alone, where the spec enables no step (R69); safe (log entry 2). -/
inductive Fault where
  /-- Raised by `step` in HALTED, the successful end of a run (R126). Safe: the spec enables no step there. -/
  | halted
  /-- Raised by `step` in FAULTED, the failed end of a run (R126). Safe: the spec enables no step there. -/
  | faulted
  deriving DecidableEq, Repr

/-- Refusals: an instruction that the model gives no meaning. -/
inductive Refusal where
  /-- Raised by `exec` for an instruction the model does not give a meaning. No instruction is one. Safe. -/
  | notModelled (mnemonic : String)
  deriving DecidableEq, Repr

/-- The state when the first step of a run begins (R31), with `nreg` registers, the loaded image and the launch value of
condpc. -/
def State.launch (nreg : Nat) (image : Memory) (condpc0 : Nat) : State :=
  { regs := List.replicate nreg 0, code := image, pc := 0, condpc := condpc0, run := .running, fault := none, out := [] }

/-- The reference configuration right after reset, with no image loaded (R31; log entries 1, 3 and 6). -/
def State.reset : State := State.launch Config.nregReference [] Config.condpc0

end Sys2Proof.Machine
end

