-- ==== Sys2Proof/Machine/Ops.lean ====
section
/-! DEFINITION. The primitives of spec/00_scope.md R9, "the only ways a rule reads or writes state", the register check of
spec/40_execution_engine.md R76, taking a fault (spec/60_exceptions.md R101, R105) and what ends a stopped run, reset
(R106; spec/70_reset_and_hazards.md R118). -/

namespace Sys2Proof.Machine

/-- NREG, the number of registers (R5, R17; log entry 3). -/
def State.nreg (s : State) : Nat := s.regs.length

/-- CODE_LEN, the number of words of the loaded image (R5, R40). -/
def State.codeLen (s : State) : Nat := s.code.length

/-- The code-memory read port, `MemRead(a, 1)`: the word at index `a`, or none when `a >= CODE_LEN` (R9, R32, R40). -/
def memRead (a : Nat) (s : State) : Option Word := s.code[a]?

/-- `x[r]`: the register the field names, or none when the field is NREG or more (R9, R16). -/
def regRead (r : Nibble) (s : State) : Option Word := s.regs[r.toNat]?

/-- `x[r] <- v` (R9). -/
def regWrite (r : Nibble) (v : Word) (s : State) : State := { s with regs := s.regs.set r.toNat v }

/-- `pc <- t` (R9). The target is not checked (R91). -/
def setPc (t : Nat) (s : State) : State := { s with pc := t }

/-- `pc <- pc + n` (R80). -/
def advance (n : Nat) (s : State) : State := setPc (s.pc + n) s

/-- `condpc <- t` (R9, R23). -/
def setCondpc (t : Nat) (s : State) : State := { s with condpc := t }

/-- `emit(v)`: append a value to the output stream (R9, R28). -/
def emit (v : Word) (s : State) : State := { s with out := s.out ++ [v] }

/-- `run <- HALTED` (R9, R82). -/
def haltEngine (s : State) : State := { s with run := .halted }

/-- TAKING A FAULT, `raise Fault(kind, pc, info)`: run becomes FAULTED and the record holds the kind, the pc at which the step
began and, for InvalidOpcode, the opcode; nothing else changes, and no handler runs (R9, R78, R101, R105). There is no
return from a fault (R106): `resetState` is the only way on. -/
def raiseFault (kind : FaultKind) (info : Option Nibble) (s : State) : State :=
  { s with run := .faulted, fault := some { kind := kind, fpc := s.pc, fopcode := info.getD 0 } }

/-- Reset: the values of R31 with a fresh launch value of condpc, the image and the register count kept (R118, R6; log entry 10). -/
def resetState (condpc0 : Nat) (s : State) : State := State.launch s.nreg s.code condpc0

/-- The register check and read of one register field (R76): go on with the register's value, or take RegisterOutOfRange
and do nothing else. -/
def withReg (r : Nibble) (s : State) (k : Word → State) : State :=
  match regRead r s with
  | some v => k v
  | none => raiseFault .registerOutOfRange none s

/-- The image with two words placed at index `pc` and `pc + 1`, the slots below `pc` that do not exist filled with zero words
(log entry 6). -/
def placeWords (pc : Nat) (ws : Word × Word) (m : Memory) : Memory :=
  m.take pc ++ List.replicate (pc - m.length) 0 ++ [ws.1, ws.2] ++ m.drop (pc + 2)

end Sys2Proof.Machine
end

