-- ==== Sys2Proof/Machine/Arithmetic.lean ====
section
/-! DEFINITION. The arithmetic family: ADD (spec/42_arithmetic.md R85, R86). -/

namespace Sys2Proof.Machine

/-- ADD rA, n: `x[a1] <- signed_W(bits_W(x[a1] + zext_W(a2))); pc <- pc + 1` (R85). -/
def execAdd (rA n : Nibble) (s : State) : Host.Outcome State Fault Refusal :=
  .next (withReg rA s fun a => advance 1 (regWrite rA (adder a n) s))

end Sys2Proof.Machine
end

