-- ==== Sys2Proof/Machine/Flags.lean ====
section
/-! DEFINITION. The hardware has no flags, condition codes or predicates (spec/10_state.md R22). The one condition it computes is
the equality comparator of JMPEQ and JMPEQW, whose result only chooses the next pc (spec/44_control_transfer.md R92). -/

namespace Sys2Proof.Machine

/-- The comparator: `eq = (bits_W(a) == b)`, equality of 32-bit patterns (R92, decision D5). -/
def comparator (a b : Word) : Bool := a == b

end Sys2Proof.Machine
end

