-- ==== Sys2Proof/Machine/ControlTransfer.lean ====
section
/-! DEFINITION. The control-transfer family: CNDPC, JMP, JMPEQ, JMPEQW (spec/44_control_transfer.md R91 to R96). No target is checked
when it is written; the next fetch checks it (R91). -/

namespace Sys2Proof.Machine

/-- CNDPC t: `condpc <- a1; pc <- pc + 1` (R93). -/
def execCndpc (t : Nibble) (s : State) : Host.Outcome State Fault Refusal :=
  .next (advance 1 (setCondpc (target t) s))

/-- JMP t: `pc <- a1` (R94); condpc is neither read nor written (C6). -/
def execJmp (t : Nibble) (s : State) : Host.Outcome State Fault Refusal :=
  .next (setPc (target t) s)

/-- JMPEQ rA, n: `if x[a1] == zext_W(a2) then pc <- condpc else pc <- pc + 1` (R95). -/
def execJmpeq (rA n : Nibble) (s : State) : Host.Outcome State Fault Refusal :=
  .next (withReg rA s fun a => if comparator a (imm4 n) then setPc s.condpc s else advance 1 s)

/-- JMPEQW rA, v: `if bits_W(x[a1]) == immW then pc <- condpc else pc <- pc + 2` (R96). -/
def execJmpeqw (rA : Nibble) (v : Word) (s : State) : Host.Outcome State Fault Refusal :=
  .next (withReg rA s fun a => if comparator a v then setPc s.condpc s else advance 2 s)

end Sys2Proof.Machine
end

