-- ==== Sys2Proof/Machine/RegisterLoad.lean ====
section
/-! DEFINITION. The register-load family: LOAD, LOADW, COPY (spec/43_register_load.md R87 to R90). The wide immediate of LOADW is
part of the decoded instruction (spec/40_execution_engine.md R75). -/

namespace Sys2Proof.Machine

/-- LOAD rA, n: `x[a1] <- zext_W(a2); pc <- pc + 1` (R88). The register is checked though only written (R76). -/
def execLoad (rA n : Nibble) (s : State) : Host.Outcome State Fault Refusal :=
  .next (withReg rA s fun _ => advance 1 (regWrite rA (imm4 n) s))

/-- LOADW rA, v: `x[a1] <- signed_W(immW); pc <- pc + 2` (R89). -/
def execLoadw (rA : Nibble) (v : Word) (s : State) : Host.Outcome State Fault Refusal :=
  .next (withReg rA s fun _ => advance 2 (regWrite rA (wideValue v) s))

/-- COPY rA, rB: `x[a1] <- x[a2]; pc <- pc + 1` (R90); `a1` is checked before `a2` (R76). -/
def execCopy (rA rB : Nibble) (s : State) : Host.Outcome State Fault Refusal :=
  .next (withReg rA s fun _ => withReg rB s fun b => advance 1 (regWrite rA b s))

end Sys2Proof.Machine
end

