-- ==== Sys2Proof/Machine/System.lean ====
section
/-! DEFINITION. The system family: HALT, PRINT (spec/41_system.md R82, R83). -/

namespace Sys2Proof.Machine

/-- HALT: `run <- HALTED`, everything else unchanged (R82; pc keeps the index of the HALT, decision D12). -/
def execHalt (s : State) : Host.Outcome State Fault Refusal :=
  .next (haltEngine s)

/-- PRINT rA: `emit(x[a1]); pc <- pc + 1` (R83). -/
def execPrint (rA : Nibble) (s : State) : Host.Outcome State Fault Refusal :=
  .next (withReg rA s fun a => advance 1 (emit a s))

end Sys2Proof.Machine
end

