-- ==== Sys2Proof/Syntax.lean ====
section
/-! DEFINITION. The instructions (spec/30_encoding.md R53, R64: one constructor per row of spec/opcode_table.json) and the
lines of the spec's own assembly notation (R68). An instruction keeps the fields its form uses; the fields its form
ignores (R53, R66) are not part of it. -/

namespace Sys2Proof

/-- The ten instructions (R64). A `Nibble` operand is a register index, a 4-bit immediate or a 4-bit code index as the
form says (R53, R59, R60, R61); a `Word` operand is the wide immediate, the whole next word (R62). -/
inductive Instr where
  /-- HALT (R82), form N. -/
  | halt
  /-- ADD rA, n (R85), form RI. -/
  | add (rA n : Nibble)
  /-- LOAD rA, n (R88), form RI. -/
  | load (rA n : Nibble)
  /-- LOADW rA, v (R89), form RW, two words. -/
  | loadw (rA : Nibble) (v : Word)
  /-- COPY rA, rB (R90), form RR: `rA` is the destination. -/
  | copy (rA rB : Nibble)
  /-- CNDPC t (R93), form T. -/
  | cndpc (t : Nibble)
  /-- JMP t (R94), form T. -/
  | jmp (t : Nibble)
  /-- JMPEQ rA, n (R95), form RI. -/
  | jmpeq (rA n : Nibble)
  /-- JMPEQW rA, v (R96), form RW, two words. -/
  | jmpeqw (rA : Nibble) (v : Word)
  /-- PRINT rA (R83), form R. -/
  | print (rA : Nibble)
  deriving DecidableEq, Repr

/-- A line of the notation of R68, with its operands as written: nothing is checked or truncated here. A register is its
number; a wide operand is a pattern or a signed value. -/
inductive AsmLine where
  | halt
  | add (rA n : Nat)
  | load (rA n : Nat)
  | loadw (rA : Nat) (v : Int)
  | copy (rA rB : Nat)
  | cndpc (t : Nat)
  | jmp (t : Nat)
  | jmpeq (rA n : Nat)
  | jmpeqw (rA : Nat) (v : Int)
  | print (rA : Nat)
  /-- `.word v`: the raw word. -/
  | word (v : Nat)
  deriving DecidableEq, Repr

end Sys2Proof
end

