-- ==== Sys2Proof/Machine/Dispatch.lean ====
section
/-! DEFINITION. The instruction dispatcher (spec/40_execution_engine.md R74, R79): one arm per instruction. -/

namespace Sys2Proof.Machine

def exec (i : Instr) (s : State) : Host.Outcome State Fault Refusal :=
  match i with
  | .halt => Sys2Proof.Machine.execHalt s
  | .add rA n => Sys2Proof.Machine.execAdd rA n s
  | .load rA n => Sys2Proof.Machine.execLoad rA n s
  | .loadw rA v => Sys2Proof.Machine.execLoadw rA v s
  | .copy rA rB => Sys2Proof.Machine.execCopy rA rB s
  | .cndpc t => Sys2Proof.Machine.execCndpc t s
  | .jmp t => Sys2Proof.Machine.execJmp t s
  | .jmpeq rA n => Sys2Proof.Machine.execJmpeq rA n s
  | .jmpeqw rA v => Sys2Proof.Machine.execJmpeqw rA v s
  | .print rA => Sys2Proof.Machine.execPrint rA s

end Sys2Proof.Machine
end

