-- ==== Sys2Proof/WellFormed.lean ====
section
/-! DEFINITION. Which instructions are well formed for a register count (spec/10_state.md R16, spec/30_encoding.md R61,
spec/40_execution_engine.md R76), and which assembly lines fit their fields (spec/30_encoding.md R68). -/

namespace Sys2Proof

/-- The register fields an instruction uses, in the order they are checked: `a1`, then `a2` (R61, R76). -/
def Instr.regFields : Instr → List Nibble
  | .halt => []
  | .add rA _ => [rA]
  | .load rA _ => [rA]
  | .loadw rA _ => [rA]
  | .copy rA rB => [rA, rB]
  | .cndpc _ => []
  | .jmp _ => []
  | .jmpeq rA _ => [rA]
  | .jmpeqw rA _ => [rA]
  | .print rA => [rA]

/-- Every register field names one of the `nreg` registers (R16). An instruction that is not well formed still decodes
and still executes: it takes RegisterOutOfRange (R76). -/
def Instr.wellFormed (nreg : Nat) (i : Instr) : Bool :=
  i.regFields.all fun r => decide (r.toNat < nreg)

/-- The length of an instruction in words (R52). -/
def Instr.words : Instr → Nat
  | .halt => 1
  | .add _ _ => 1
  | .load _ _ => 1
  | .loadw _ _ => 2
  | .copy _ _ => 1
  | .cndpc _ => 1
  | .jmp _ => 1
  | .jmpeq _ _ => 1
  | .jmpeqw _ _ => 2
  | .print _ => 1

/-- A written operand fits a 4-bit field: r0 to r15, 0 to 15 (R68). -/
def fitsNibble (n : Nat) : Bool := decide (n < 16)

/-- A written wide operand is a 32-bit pattern or a signed 32-bit value (R68, log entry 13). -/
def fitsWide (v : Int) : Bool := decide (-(2 ^ 31) ≤ v) && decide (v < 2 ^ 32)

/-- A line whose every operand fits its field: an assembler refuses the others "rather than let the encoder truncate"
them (R68). -/
def AsmLine.wellFormed : AsmLine → Bool
  | .halt => true
  | .add rA n => fitsNibble rA && fitsNibble n
  | .load rA n => fitsNibble rA && fitsNibble n
  | .loadw rA v => fitsNibble rA && fitsWide v
  | .copy rA rB => fitsNibble rA && fitsNibble rB
  | .cndpc t => fitsNibble t
  | .jmp t => fitsNibble t
  | .jmpeq rA n => fitsNibble rA && fitsNibble n
  | .jmpeqw rA v => fitsNibble rA && fitsWide v
  | .print rA => fitsNibble rA
  | .word v => decide (v < 2 ^ 32)

end Sys2Proof
end

