-- ==== Sys2Proof/Decode.lean ====
section
/-! DEFINITION. The decoder unit and the dispatcher's choice of instruction (spec/30_encoding.md R56, R57, R64, R65, R66;
spec/40_execution_engine.md R73, R74, R75), the encoder unit (R54, R55), the words of each instruction (R64, R68) and the
assembler of the spec's notation (R68). -/

namespace Sys2Proof

/-- `decode_opcode(w) = w[11:8]` (R56). -/
def decodeOpcode (w : Word) : Nibble := w.extractLsb' 8 4

/-- `decode_arg1(w) = w[7:4]` (R56). -/
def decodeArg1 (w : Word) : Nibble := w.extractLsb' 4 4

/-- `decode_arg2(w) = w[3:0]` (R56). -/
def decodeArg2 (w : Word) : Nibble := w.extractLsb' 0 4

/-- Why the dispatcher finds no instruction, by name. -/
inductive Reject where
  /-- The opcode field is 10 to 15 (R65, R74). -/
  | invalidOpcode (op : Nibble)
  /-- LOADW or JMPEQW with no slot after it (R75). -/
  | missingImmediate
  deriving DecidableEq, Repr

/-- The instruction of the word `w`, where `next` is the word in the following slot if there is one. The opcode alone
selects (R74); only LOADW and JMPEQW use `next` (R75, log entry 16); bits 31..12 and the fields a form ignores are not
looked at (R66). The register fields are not checked here (R57). -/
def decode (w : Word) (next : Option Word) : Except Reject Instr :=
  match decodeOpcode w with
  | 0#4 => .ok .halt
  | 1#4 => .ok (.add (decodeArg1 w) (decodeArg2 w))
  | 2#4 => .ok (.load (decodeArg1 w) (decodeArg2 w))
  | 3#4 =>
    match next with
    | some v => .ok (.loadw (decodeArg1 w) v)
    | none => .error .missingImmediate
  | 4#4 => .ok (.copy (decodeArg1 w) (decodeArg2 w))
  | 5#4 => .ok (.cndpc (decodeArg1 w))
  | 6#4 => .ok (.jmp (decodeArg1 w))
  | 7#4 => .ok (.jmpeq (decodeArg1 w) (decodeArg2 w))
  | 8#4 =>
    match next with
    | some v => .ok (.jmpeqw (decodeArg1 w) v)
    | none => .error .missingImmediate
  | 9#4 => .ok (.print (decodeArg1 w))
  | op => .error (.invalidOpcode op)

/-- The two words a table word stands for: the instruction word and the word after it, bits at and above `nbits` being 0
(log entry 7). -/
def tableWords (nbits w : Nat) : Word × Word :=
  (BitVec.ofNat 32 (w % 2 ^ nbits), BitVec.ofNat 32 (w % 2 ^ nbits / 2 ^ 32))

/-- What the decoder reads from an instruction given as one number, as spec/opcode_table.json numbers its bits. -/
def decodeTableWord (nbits w : Nat) : Option Instr :=
  match decode (tableWords nbits w).1 (some (tableWords nbits w).2) with
  | .ok i => some i
  | .error _ => none

/-- The encoder unit, `encode(op_in, a1_in, a2_in)` of R54: any integers, each taken mod 16, never a failure (R55). -/
def encodeUnit (opIn a1In a2In : Int) : Word :=
  BitVec.ofNat 32 (((opIn % 16).toNat <<< 8) ||| ((a1In % 16).toNat <<< 4) ||| (a2In % 16).toNat)

/-- The encoder unit on fields that are already 4 bits wide. -/
def encodeFields (op a1 a2 : Nibble) : Word := encodeUnit op.toNat a1.toNat a2.toNat

/-- The canonical words of an instruction: every ignored bit 0 (R64, R68). -/
def encode : Instr → List Word
  | .halt => [encodeFields 0 0 0]
  | .add rA n => [encodeFields 1 rA n]
  | .load rA n => [encodeFields 2 rA n]
  | .loadw rA v => [encodeFields 3 rA 0, v]
  | .copy rA rB => [encodeFields 4 rA rB]
  | .cndpc t => [encodeFields 5 t 0]
  | .jmp t => [encodeFields 6 t 0]
  | .jmpeq rA n => [encodeFields 7 rA n]
  | .jmpeqw rA v => [encodeFields 8 rA 0, v]
  | .print rA => [encodeFields 9 rA 0]

/-- The words of an assembly line by the table of R68, before the check that its operands fit. -/
def asmWords : AsmLine → List Word
  | .halt => [encodeUnit 0 0 0]
  | .add rA n => [encodeUnit 1 rA n]
  | .load rA n => [encodeUnit 2 rA n]
  | .loadw rA v => [encodeUnit 3 rA 0, BitVec.ofInt 32 v]
  | .copy rA rB => [encodeUnit 4 rA rB]
  | .cndpc t => [encodeUnit 5 t 0]
  | .jmp t => [encodeUnit 6 t 0]
  | .jmpeq rA n => [encodeUnit 7 rA n]
  | .jmpeqw rA v => [encodeUnit 8 rA 0, BitVec.ofInt 32 v]
  | .print rA => [encodeUnit 9 rA 0]
  | .word v => [BitVec.ofNat 32 v]

/-- The assembler: the line's words, or none where an operand does not fit its field (R68). -/
def assemble (l : AsmLine) : Option (List Word) :=
  if l.wellFormed then some (asmWords l) else none

end Sys2Proof
end

