-- ==== Sys2Proof/Machine/Fetch.lean ====
section
/-! DEFINITION. The first four phases of a step: the bounds check and fetch, decode, dispatch and the wide-immediate read
(spec/40_execution_engine.md R72, R73, R74, R75), in that order (R77). -/

namespace Sys2Proof.Machine

/-- The fault a rejected word raises: its kind and the opcode it reports, if any (R74, R75, R97). -/
def rejectFault : Reject → FaultKind × Option Nibble
  | .invalidOpcode op => (.invalidOpcode, some op)
  | .missingImmediate => (.addressOutOfRange, none)

/-- The instruction at pc, or the fault that stands before it: pc out of range, an undefined opcode, a missing wide
immediate (R72, R74, R75, R77). -/
def fetch (s : State) : Except (FaultKind × Option Nibble) Instr :=
  match memRead s.pc s with
  | none => .error (.addressOutOfRange, none)
  | some w =>
    match decode w (memRead (s.pc + 1) s) with
    | .ok i => .ok i
    | .error e => .error (rejectFault e)

end Sys2Proof.Machine
end

