-- ==== Sys2Proof/Machine/Step.lean ====
section
/-! DEFINITION. The controller's step (spec/40_execution_engine.md R69 to R79) and the host's way of placing one instruction. -/

namespace Sys2Proof.Machine

/-- One step: enabled only while run is RUNNING (R69); the fetch phases, then the register check and the execution of the
instruction, or the one fault that the first failing check raises (R77). -/
def step (s : State) : Host.Outcome State Fault Refusal :=
  match s.run with
  | .halted => .fault .halted
  | .faulted => .fault .faulted
  | .running =>
    match fetch s with
    | .ok i => exec i s
    | .error f => .next (raiseFault f.1 f.2 s)

/-- The state with one instruction placed where the next step fetches, and that step enabled (log entries 6 and 7). -/
def State.withFetchWord (s : State) (nbits w : Nat) : State :=
  { s with code := placeWords s.pc (tableWords nbits w) s.code, run := .running, fault := none }

end Sys2Proof.Machine
end

