-- ==== Sys2Proof/Machine/HostPort.lean ====
section
/-! DEFINITION. The host's side of the block (spec/10_state.md R26, R32 to R36; spec/60_exceptions.md R114 to R117;
spec/70_reset_and_hazards.md R118, R121, R126): the run loop with its step budget, the image-load port, reset, the status
and output ports. -/

namespace Sys2Proof.Machine

/-- The run loop with the step budget `B`: at most `B` steps, stopping when run leaves RUNNING; the state is left as the last
step left it (R71, R115). -/
def runLoop : Nat → State → State
  | 0, s => s
  | b + 1, s =>
    match step s with
    | .next t => runLoop b t
    | .fault _ => s
    | .refused _ => s

/-- How many steps the loop performs within the budget (R115, R125). -/
def stepsTaken : Nat → State → Nat
  | 0, _ => 0
  | b + 1, s =>
    match step s with
    | .next t => stepsTaken b t + 1
    | .fault _ => 0
    | .refused _ => 0

/-- The status port's encoding of run (R26, decision D9). -/
def runCode : RunState → BitVec 2
  | .running => 0
  | .halted => 1
  | .faulted => 2

/-- The status port's encoding of a fault kind (R26, R97, decision D9); 0 is no fault. -/
def kindCode : FaultKind → BitVec 2
  | .invalidOpcode => 1
  | .addressOutOfRange => 2
  | .registerOutOfRange => 3

/-- The status word (R26). -/
structure StatusWord where
  run : BitVec 2
  kind : BitVec 2
  fpc : Nat
  fopcode : Nibble
  deriving DecidableEq, Repr

/-- What the host reads on the status port, at any time (R26, R35). -/
def statusWord (s : State) : StatusWord :=
  match s.fault with
  | none => { run := runCode s.run, kind := 0, fpc := 0, fopcode := 0 }
  | some f =>
    { run := runCode s.run
      kind := kindCode f.kind
      fpc := f.fpc
      fopcode := match f.kind with
        | .invalidOpcode => f.fopcode
        | .addressOutOfRange => 0
        | .registerOutOfRange => 0 }

/-- What the host may inspect when the loop has returned (R35, decision D26). -/
structure Inspection where
  x : List Int
  pc : Nat
  condpc : Nat
  deriving DecidableEq, Repr

/-- The registers as signed values, pc and condpc (R35). -/
def inspect (s : State) : Inspection := { x := s.regs.map signedW, pc := s.pc, condpc := s.condpc }

/-- The values emitted since `s`, in order, as signed integers (R28, R34). -/
def outputsSince (s t : State) : List Int := (t.out.drop s.out.length).map signedW

/-- The line the host shows for an output value: decimal, `-` for a negative value, no padding, one newline (R116, decision
D16; log entry 14). -/
def renderValue (v : Word) : List Char :=
  (if signedW v < 0 then ['-'] else []) ++ Nat.toDigits 10 (signedW v).natAbs ++ ['\n']

/-- Why the host's request is rejected before any step (R38; spec/93_implementation_defined.md U10 to U12). -/
inductive HostRefusal where
  /-- Construction with NREG outside 1 to 16 (U10). -/
  | registerCount
  /-- An image of more than CODE_CAP words (R38, U11). -/
  | imageTooLong
  /-- An image word that is no 32-bit pattern (R38, U12). -/
  | wordOutOfRange
  /-- A load after the first step and before the next reset (R33), or while a run loop is in progress (R39; log entry 20). -/
  | loadClosed
  /-- A run with no accepted image: the engine does not start (R38, R121; log entry 9). -/
  | noImage
  /-- A run or an inspection while a run loop is in progress (R114: the host inspects when the loop has returned; log entry 20). -/
  | loopRunning
  deriving DecidableEq, Repr

/-- The phase of the image-load port (R33, R38, R114; log entry 8). -/
inductive LoadPhase where
  /-- No image has been accepted, or the last one was refused. -/
  | awaitingImage
  /-- An image is in code memory and no step has been performed since construction or reset. -/
  | ready
  /-- A step has been performed since the last reset. -/
  | started
  deriving DecidableEq, Repr

/-- The run loop that a run request starts (R36, R71, R114, R115; log entry 20). -/
inductive Loop where
  /-- No loop is in progress: none was started since construction or reset, or the last one has returned. -/
  | idle
  /-- A loop that was given a budget and has `left` steps of it left. -/
  | budgeted (left : Nat)
  /-- A loop without a budget. -/
  | unbudgeted
  deriving DecidableEq, Repr

/-- The block as the host sees it: the architectural state, CODE_CAP, the load port's phase and the run loop in progress. -/
structure Block where
  state : State
  codeCap : Nat
  phase : LoadPhase
  loop : Loop
  deriving DecidableEq, Repr

/-- Construction fixes NREG and CODE_CAP; NREG must be 1 to 16 (R5, R6, R114, U10). -/
def Block.construct (nreg codeCap condpc0 : Nat) : Except HostRefusal Block :=
  if Config.nregValid nreg then
    .ok { state := State.launch nreg [] condpc0, codeCap := codeCap, phase := .awaitingImage, loop := .idle }
  else .error .registerCount

/-- What is wrong with an image, if anything (R38). R38 only says that the image is refused; that an image which is too long and
also has a word out of range is reported as too long is the model's choice (DESIGN CHOICE, log entry 19). -/
def imageProblem (codeCap : Nat) (image : List Nat) : Option HostRefusal :=
  if codeCap < image.length then some .imageTooLong
  else if image.any (fun w => decide (2 ^ 32 ≤ w)) then some .wordOutOfRange
  else none

/-- The image-load port (R33, R38): before the first step, an image within CODE_CAP whose words are 32-bit patterns becomes the
code memory; any other is refused and the engine does not start (log entries 8 and 9). The port is closed while a run loop is in
progress (R39, R114; log entry 20). That a closed port answers loadClosed whatever the image is the model's choice (DESIGN CHOICE,
log entry 19). -/
def Block.load (image : List Nat) (b : Block) : Block × Option HostRefusal :=
  if b.phase = .started ∨ b.loop ≠ .idle then (b, some .loadClosed)
  else
    match imageProblem b.codeCap image with
    | some r => ({ b with phase := .awaitingImage }, some r)
    | none => ({ b with state := { b.state with code := image.map (BitVec.ofNat 32) }, phase := .ready }, none)

/-- Reset, at any time between steps (R36, R114, R118; log entry 10). It discards the run: a loop in progress is over. -/
def Block.reset (condpc0 : Nat) (b : Block) : Block :=
  { b with
    state := resetState condpc0 b.state
    phase := match b.phase with
      | .awaitingImage => .awaitingImage
      | .ready => .ready
      | .started => .ready
    loop := .idle }

/-- Why a run request is refused, if it is (R38, R121; log entries 9 and 20). A request in HALTED or FAULTED is not refused: its loop
performs no step and returns (R69, R71; log entry 20). -/
def Block.runRefusal (b : Block) : Option HostRefusal :=
  if b.phase = .awaitingImage then some .noImage
  else if b.loop ≠ .idle then some .loopRunning
  else none

/-- The loop a run request starts: with the budget it was given, or without one (R114, R115). -/
def Loop.start : Option Nat → Loop
  | some budget => .budgeted budget
  | none => .unbudgeted

/-- What the host receives from one move of the loop. -/
inductive LoopEvent where
  /-- No loop is in progress. -/
  | nothing
  /-- One step was performed; the values it printed, one for a PRINT and none otherwise (R34, R114 "during the run"). -/
  | stepped (printed : List Int)
  /-- The loop has returned, with this status (R114, R115). -/
  | returned (status : StatusWord)
  deriving DecidableEq, Repr

/-- The output values of an event, in order (R34). -/
def LoopEvent.printed : LoopEvent → List Int
  | .nothing => []
  | .stepped vs => vs
  | .returned _ => []

/-- The loop returns to the host and leaves the state as the last step left it (R71, R115). -/
def Block.loopReturn (b : Block) : Block × LoopEvent := ({ b with loop := .idle }, .returned (statusWord b.state))

/-- The loop performs one step and goes on as `rest`, or returns because no step is enabled (R69, R71). -/
def Block.loopStep (rest : Loop) (b : Block) : Block × LoopEvent :=
  match step b.state with
  | .next t => ({ b with state := t, phase := .started, loop := rest }, .stepped (outputsSince b.state t))
  | .fault _ => b.loopReturn
  | .refused _ => b.loopReturn

/-- One move of the run loop: a step while run is RUNNING and the budget, if there is one, is not used up; otherwise the loop returns
(R71, R115, R127). The host's requests fall between two moves. -/
def Block.tick (b : Block) : Block × LoopEvent :=
  match b.loop with
  | .idle => (b, .nothing)
  | .budgeted 0 => b.loopReturn
  | .budgeted (left + 1) => b.loopStep (.budgeted left)
  | .unbudgeted => b.loopStep .unbudgeted

/-- The block after `n` moves of its loop. -/
def Block.ticks : Nat → Block → Block
  | 0, b => b
  | n + 1, b => Block.ticks n b.tick.1

/-- The output values the host receives during `n` moves of the loop, in order (R34, R114). -/
def Block.received : Nat → Block → List Int
  | 0, _ => []
  | n + 1, b => b.tick.2.printed ++ Block.received n b.tick.1

/-- A whole run request with a step budget, from the request to the loop's return, in one move (R114, R115). -/
def Block.runFor (budget : Nat) (b : Block) : Block × Option HostRefusal :=
  match b.runRefusal with
  | some r => (b, some r)
  | none =>
    ({ b with
       state := runLoop budget b.state
       phase := if stepsTaken budget b.state = 0 then b.phase else .started }, none)

/-- The host's requests after construction; there are no others (R114, decision D29). -/
inductive HostRequest where
  | load (image : List Nat)
  | reset (condpc0 : Nat)
  /-- Start the loop, with a step budget or without one. -/
  | run (budget : Option Nat)
  | readStatus
  | inspect
  deriving DecidableEq, Repr

/-- What the block answers. A run's output values and its status come from the loop's moves (LoopEvent). -/
inductive HostResponse where
  | accepted
  | refused (r : HostRefusal)
  | status (w : StatusWord)
  | inspection (i : Inspection)
  deriving DecidableEq, Repr

/-- The answer to a request that the block accepts or refuses. -/
def HostResponse.ofRefusal : Option HostRefusal → HostResponse
  | none => .accepted
  | some r => .refused r

/-- One host request, made between two moves of the loop (R114). The status is read at any time; registers, pc and condpc when no
loop is in progress (R35, R114). R35 and R114 give the inspection after a run has returned and say nothing of one before the first
run; that the model answers it there too, in every phase and with no image loaded, is the model's choice (DESIGN CHOICE, log
entry 18). -/
def Block.request (q : HostRequest) (b : Block) : Block × HostResponse :=
  match q with
  | .load image => ((b.load image).1, .ofRefusal (b.load image).2)
  | .reset c => (b.reset c, .accepted)
  | .run budget =>
    match b.runRefusal with
    | some r => (b, .refused r)
    | none => ({ b with loop := Loop.start budget }, .accepted)
  | .readStatus => (b, .status (statusWord b.state))
  | .inspect => (b, if b.loop = .idle then .inspection (inspect b.state) else .refused .loopRunning)

end Sys2Proof.Machine
end

