-- ==== Sys2Proof/Machine/Listing.lean ====
section
/-! DEFINITION. The whole step as the one listing of spec/40_execution_engine.md section 5, transcribed with plain numbers and
without the decoder, the instructions and the operations of the model. Statements compare the machine's step with it. -/

namespace Sys2Proof.Machine.Listing

/-- `signed_W(b)` of R8 on numbers. -/
def signed (b : Nat) : Int := if b < 2 ^ 31 then (b : Int) else (b : Int) - 2 ^ 32

/-- `bits_W(v)` of R8 on numbers: `v mod 2^W`. -/
def bits (v : Int) : Nat := (v % 2 ^ 32).toNat

/-- `v[hi:lo]` of R7. -/
def slice (hi lo v : Nat) : Nat := v / 2 ^ lo % 2 ^ (hi - lo + 1)

/-- `x[i]` as an integer; the listing reads it only below NREG. -/
def x (s : State) (i : Nat) : Int := signed (s.regs.getD i 0).toNat

/-- `x[i] <- v`. -/
def setX (s : State) (i : Nat) (v : Int) : List Word := s.regs.set i (BitVec.ofNat 32 (bits v))

/-- `MemRead(a, 1)` as a number; the listing reads it only below CODE_LEN. -/
def mem (s : State) (a : Nat) : Nat := (s.code.getD a 0).toNat

/-- `raise Fault(kind, pc, info)`. -/
def raise (kind : FaultKind) (info : Nat) (s : State) : State :=
  { s with run := .faulted, fault := some ⟨kind, s.pc, BitVec.ofNat 4 info⟩ }

/-- The case of the listing, once every check has passed. -/
def perform (op a1 a2 immW : Nat) (s : State) : State :=
  if op = 0 then { s with run := .halted }
  else if op = 1 then { s with regs := setX s a1 (signed (bits (x s a1 + a2))), pc := s.pc + 1 }
  else if op = 2 then { s with regs := setX s a1 a2, pc := s.pc + 1 }
  else if op = 3 then { s with regs := setX s a1 (signed immW), pc := s.pc + 2 }
  else if op = 4 then { s with regs := setX s a1 (x s a2), pc := s.pc + 1 }
  else if op = 5 then { s with condpc := a1, pc := s.pc + 1 }
  else if op = 6 then { s with pc := a1 }
  else if op = 7 then { s with pc := if x s a1 = a2 then s.condpc else s.pc + 1 }
  else if op = 8 then { s with pc := if bits (x s a1) = immW then s.condpc else s.pc + 2 }
  else { s with out := s.out ++ [BitVec.ofNat 32 (bits (x s a1))], pc := s.pc + 1 }

/-- The listing's `step(s)`, for a state whose run is RUNNING. -/
def step (s : State) : State :=
  if s.code.length ≤ s.pc then raise .addressOutOfRange 0 s
  else
    let w := mem s s.pc
    let op := slice 11 8 w
    let a1 := slice 7 4 w
    let a2 := slice 3 0 w
    if 10 ≤ op then raise .invalidOpcode op s
    else if (op = 3 ∨ op = 8) ∧ s.code.length ≤ s.pc + 1 then raise .addressOutOfRange 0 s
    else if (op = 1 ∨ op = 2 ∨ op = 3 ∨ op = 4 ∨ op = 7 ∨ op = 8 ∨ op = 9) ∧ s.regs.length ≤ a1 then
      raise .registerOutOfRange 0 s
    else if op = 4 ∧ s.regs.length ≤ a2 then raise .registerOutOfRange 0 s
    else perform op a1 a2 (mem s (s.pc + 1)) s

end Sys2Proof.Machine.Listing
end

