-- ==== Sys2Proof/Safety.lean ====
section
/-! DEFINITION. What claims call a safe run: the invariants of the state and of the block, what it is for a run to end, to fault,
and to depend on condpc's launch value. -/

namespace Sys2Proof.Machine

/-- The register count is one a construction accepts (R5). -/
abbrev State.SizesOk (s : State) : Prop := 1 ≤ s.nreg ∧ s.nreg ≤ 16

/-- The word at index `a` exists and its opcode field satisfies `p`. -/
def State.opcodeAt (a : Nat) (p : Nibble → Bool) (s : State) : Bool :=
  match memRead a s with
  | some w => p (decodeOpcode w)
  | none => false

/-- The fault record tells the truth about code memory and the register file (R25, R97, R101): fpc is the pc, and the word
there has the cause that the kind names. -/
def State.recordTrue (f : FaultRecord) (s : State) : Bool :=
  f.fpc == s.pc &&
  match f.kind with
  | .invalidOpcode => decide (10 ≤ f.fopcode.toNat) && State.opcodeAt s.pc (fun op => op == f.fopcode) s
  | .addressOutOfRange =>
    f.fopcode == 0 &&
      (decide (s.codeLen ≤ s.pc) ||
        (decide (s.codeLen ≤ s.pc + 1) && State.opcodeAt s.pc (fun op => op == 3 || op == 8) s))
  | .registerOutOfRange =>
    f.fopcode == 0 &&
      match fetch s with
      | .ok i => !i.wellFormed s.nreg
      | .error _ => false

/-- The run state and the fault record agree (R24, R25): no record in RUNNING and HALTED, a true one in FAULTED; and in HALTED
the pc is at a HALT (R82). -/
def State.stopTrue (s : State) : Bool :=
  match s.run, s.fault with
  | .running, none => true
  | .halted, none => State.opcodeAt s.pc (fun op => op == 0) s
  | .faulted, some f => State.recordTrue f s
  | .running, some _ => false
  | .halted, some _ => false
  | .faulted, none => false

/-- The bounds of pc and condpc (R20, R23), for a run launched with condpc at `condpc0`. -/
abbrev State.IndexesBounded (condpc0 : Nat) (s : State) : Prop :=
  s.pc ≤ max (s.codeLen + 1) (max 15 condpc0) ∧ (s.condpc = condpc0 ∨ s.condpc ≤ 15)

/-- The invariant of a run launched with condpc at `condpc0`. -/
abbrev State.Inv (condpc0 : Nat) (s : State) : Prop :=
  State.SizesOk s ∧ State.stopTrue s = true ∧ State.IndexesBounded condpc0 s

/-- The invariant of the block: code memory within CODE_CAP, a legal register count, run and record in agreement, no step performed
while the load port is open, and no loop in progress without an accepted image. -/
abbrev Block.Inv (b : Block) : Prop :=
  Memory.wf b.codeCap b.state.code = true ∧ State.SizesOk b.state ∧ State.stopTrue b.state = true ∧
  (b.phase ≠ .started → b.state = State.launch b.state.nreg b.state.code b.state.condpc) ∧
  (b.loop ≠ .idle → b.phase ≠ .awaitingImage)

/-- A run without a budget ends in `t` (R71, R126; log entry 11). -/
def RunEndsIn (s t : State) : Prop := ∃ budget, runLoop budget s = t ∧ t.run ≠ .running

/-- A run never faults. -/
def NeverFaults (s : State) : Prop := ∀ budget, (runLoop budget s).run ≠ .faulted

/-- The instruction is an equality jump that is taken in this state (R92, R95, R96). -/
def takesEqualityJump (i : Instr) (s : State) : Bool :=
  match i with
  | .jmpeq rA n => decide (regRead rA s = some (imm4 n))
  | .jmpeqw rA v => decide (regRead rA s = some v)
  | _ => false

/-- Within the budget the run takes an equality jump before it executes any CNDPC, so that it uses the value condpc had at
its start (R121). -/
def usesLaunchCondpc : Nat → State → Bool
  | 0, _ => false
  | b + 1, s =>
    match s.run, fetch s with
    | .running, .ok (.cndpc _) => false
    | .running, .ok i =>
      takesEqualityJump i s ||
        match exec i s with
        | .next t => usesLaunchCondpc b t
        | .fault _ => false
        | .refused _ => false
    | _, _ => false

/-- What a run shows, condpc left out (R30, R126): everything but condpc is the same. -/
def SameButCondpc (s t : State) : Prop := t = { s with condpc := t.condpc }

/-- The next state of an outcome, if it is one. -/
def nextState (o : Host.Outcome State Fault Refusal) : Option State :=
  match o with
  | .next s => some s
  | .fault _ => none
  | .refused _ => none

end Sys2Proof.Machine
end

