-- ==== Sys2Proof/Certificates/Slice0/Obligations.lean ====
section
/-! DEFINITION. The statements for the provers, one per rule or group of rules of the spec. A clause that rests on one of the
spec's own decisions (D<n> of spec/92_eei_decisions.md) or derivations is said in the statement's docstring. -/

open Sys2Proof Sys2Proof.Machine

/-! ### Reset and launch -/

/-- R18, R21: every register is 0 after reset, pc is 0 and run is RUNNING, for every register count, image and launch value of
condpc, and for the model's reset. -/
def Obligations.RegistersAndPcAreZeroAtReset : Prop :=
  (∀ (n : Nat) (image : Memory) (c : Nat),
    (State.launch n image c).regs.length = n ∧
    (∀ i, i < n → (State.launch n image c).regs[i]? = some 0#32) ∧
    (State.launch n image c).pc = 0 ∧ (State.launch n image c).run = .running) ∧
  (∀ v ∈ State.reset.regs, v = 0#32) ∧ State.reset.pc = 0 ∧ State.reset.run = .running

/-- The table of R31 after the host's reset of any block (R118, R36): only the image and the register count are kept. The value
of condpc is the launch value the reset is given, for every such value (decision D6, log entries 1 and 10). -/
def Obligations.HostResetGivesTheLaunchState : Prop :=
  ∀ (b : Block) (c : Nat),
    (b.request (.reset c)).1.state =
      { regs := List.replicate b.state.regs.length 0#32, code := b.state.code, pc := 0, condpc := c, run := .running,
        fault := none, out := [] } ∧
    (b.request (.reset c)).1.codeCap = b.codeCap ∧
    (b.request (.reset c)).2 = .accepted

/-- R119: the first step after launch fetches the word at index 0, and with CODE_LEN = 0 it takes AddressOutOfRange with fpc 0 (the spec
marks the last clause as derived from R72). -/
def Obligations.FirstStepFetchesIndexZero : Prop :=
  (∀ (n c : Nat) (w : Word) (rest : Memory) (i : Instr), decode w rest.head? = .ok i →
    step (State.launch n (w :: rest) c) = exec i (State.launch n (w :: rest) c)) ∧
  (∀ n c : Nat,
    step (State.launch n [] c) =
      .next { State.launch n [] c with run := .faulted, fault := some ⟨.addressOutOfRange, 0, 0#4⟩ })

/-! ### The ten instructions: encoding, selection, result with its whole next state, and where a form traps -/

/-- R82. HALT ends the run and changes nothing but run; every word with bits 11:8 zero is HALT; after it no step is enabled. The pc
staying at the HALT is decision D12, the ignored fields are decision D11. -/
def Obligations.HaltStopsTheEngine : Prop :=
  encode .halt = [0x000#32] ∧
  (∀ (w : Word) (next : Option Word), w &&& 0xF00#32 = 0x000#32 → decode w next = .ok .halt) ∧
  (∀ s : State, exec .halt s = .next { s with run := .halted }) ∧
  (∀ (s : State) (w : Word), s.run = .running → s.code[s.pc]? = some w → w &&& 0xF00#32 = 0x000#32 →
    step s = .next { s with run := .halted } ∧ step { s with run := .halted } = .fault .halted)

/-- R83. PRINT appends the register's pattern, read as signed, to the output and advances pc by 1; with a register out of range it
takes RegisterOutOfRange and emits nothing. The ignored a2 is decision D11. -/
def Obligations.PrintAppendsTheRegister : Prop :=
  (∀ rA : Nibble, encode (.print rA) = [BitVec.ofNat 32 (0x900 + 16 * rA.toNat)]) ∧
  (∀ (w : Word) (next : Option Word), w &&& 0xF00#32 = 0x900#32 → decode w next = .ok (.print (w.extractLsb' 4 4))) ∧
  (∀ (s : State) (rA : Nibble) (a : Word), s.regs[rA.toNat]? = some a →
    exec (.print rA) s = .next { s with out := s.out ++ [a], pc := s.pc + 1 }) ∧
  (∀ (s : State) (rA : Nibble) (a : Word) (t : State), s.regs[rA.toNat]? = some a → exec (.print rA) s = .next t →
    outputsSince s t = [a.toInt]) ∧
  (∀ (s : State) (rA : Nibble), s.regs.length ≤ rA.toNat →
    exec (.print rA) s = .next { s with run := .faulted, fault := some ⟨.registerOutOfRange, s.pc, 0#4⟩ })

/-- R85, R84, R86. ADD writes the 32-bit value congruent to the exact sum of the signed register and the unsigned nibble modulo
2^32, and advances pc by 1; with a register out of range it takes RegisterOutOfRange. The wrap is decision D3. -/
def Obligations.AddWrapsModuloTwoToThe32 : Prop :=
  (∀ rA n : Nibble, encode (.add rA n) = [BitVec.ofNat 32 (0x100 + 16 * rA.toNat + n.toNat)]) ∧
  (∀ (w : Word) (next : Option Word), w &&& 0xF00#32 = 0x100#32 →
    decode w next = .ok (.add (w.extractLsb' 4 4) (w.extractLsb' 0 4))) ∧
  (∀ (s : State) (rA n : Nibble) (a : Word), s.regs[rA.toNat]? = some a →
    ∃ v : Word, (2 ^ 32 : Int) ∣ (a.toInt + (n.toNat : Int)) - v.toInt ∧
      exec (.add rA n) s = .next { s with regs := s.regs.set rA.toNat v, pc := s.pc + 1 }) ∧
  (∀ (s : State) (rA n : Nibble), s.regs.length ≤ rA.toNat →
    exec (.add rA n) s = .next { s with run := .faulted, fault := some ⟨.registerOutOfRange, s.pc, 0#4⟩ })

/-- R88. LOAD writes the nibble as a number from 0 to 15 and advances pc by 1; with a register out of range it takes
RegisterOutOfRange and writes no register. -/
def Obligations.LoadWritesTheNibble : Prop :=
  (∀ rA n : Nibble, encode (.load rA n) = [BitVec.ofNat 32 (0x200 + 16 * rA.toNat + n.toNat)]) ∧
  (∀ (w : Word) (next : Option Word), w &&& 0xF00#32 = 0x200#32 →
    decode w next = .ok (.load (w.extractLsb' 4 4) (w.extractLsb' 0 4))) ∧
  (∀ (s : State) (rA n : Nibble), rA.toNat < s.regs.length →
    ∃ v : Word, v.toInt = (n.toNat : Int) ∧
      exec (.load rA n) s = .next { s with regs := s.regs.set rA.toNat v, pc := s.pc + 1 }) ∧
  (∀ (s : State) (rA n : Nibble), s.regs.length ≤ rA.toNat →
    ∃ (t : State) (f : FaultRecord), exec (.load rA n) s = .next t ∧ t.run = .faulted ∧ t.fault = some f ∧ f.kind = .registerOutOfRange ∧
      t.regs = s.regs)

/-- R89. LOADW writes the whole next word's pattern and advances pc by 2; with no next word it takes AddressOutOfRange with the
pc of the LOADW, whatever its register field; with a register out of range it takes RegisterOutOfRange. Decisions D4 (the bit
copy), D7, D8 (which fault, which pc) and D11 (a2). -/
def Obligations.LoadwWritesTheNextWord : Prop :=
  (∀ (rA : Nibble) (v : Word), encode (.loadw rA v) = [BitVec.ofNat 32 (0x300 + 16 * rA.toNat), v]) ∧
  (∀ w v : Word, w &&& 0xF00#32 = 0x300#32 → decode w (some v) = .ok (.loadw (w.extractLsb' 4 4) v)) ∧
  (∀ (s : State) (rA : Nibble) (v : Word), rA.toNat < s.regs.length →
    exec (.loadw rA v) s = .next { s with regs := s.regs.set rA.toNat v, pc := s.pc + 2 }) ∧
  (∀ (s : State) (rA : Nibble) (v : Word), s.regs.length ≤ rA.toNat →
    exec (.loadw rA v) s = .next { s with run := .faulted, fault := some ⟨.registerOutOfRange, s.pc, 0#4⟩ }) ∧
  (∀ (s : State) (w : Word), s.run = .running → s.code[s.pc]? = some w → w &&& 0xF00#32 = 0x300#32 →
    s.code.length ≤ s.pc + 1 →
    step s = .next { s with run := .faulted, fault := some ⟨.addressOutOfRange, s.pc, 0#4⟩ })

/-- R90. COPY writes the source register's value to the destination and advances pc by 1, changing nothing but pc when the two are
the same register; with either register out of range it takes RegisterOutOfRange and writes no register. -/
def Obligations.CopyMovesOneRegister : Prop :=
  (∀ rA rB : Nibble, encode (.copy rA rB) = [BitVec.ofNat 32 (0x400 + 16 * rA.toNat + rB.toNat)]) ∧
  (∀ (w : Word) (next : Option Word), w &&& 0xF00#32 = 0x400#32 →
    decode w next = .ok (.copy (w.extractLsb' 4 4) (w.extractLsb' 0 4))) ∧
  (∀ (s : State) (rA rB : Nibble) (b : Word), rA.toNat < s.regs.length → s.regs[rB.toNat]? = some b →
    exec (.copy rA rB) s = .next { s with regs := s.regs.set rA.toNat b, pc := s.pc + 1 }) ∧
  (∀ (s : State) (rA : Nibble), rA.toNat < s.regs.length → exec (.copy rA rA) s = .next { s with pc := s.pc + 1 }) ∧
  (∀ (s : State) (rA rB : Nibble), s.regs.length ≤ rA.toNat ∨ s.regs.length ≤ rB.toNat →
    ∃ (t : State) (f : FaultRecord), exec (.copy rA rB) s = .next t ∧ t.run = .faulted ∧ t.fault = some f ∧ f.kind = .registerOutOfRange ∧
      t.regs = s.regs)

/-- R93. CNDPC sets condpc to its field, a number from 0 to 15, and advances pc by 1, in every state. The ignored a2 is decision
D11. -/
def Obligations.CndpcSetsTheBranchTarget : Prop :=
  (∀ t : Nibble, encode (.cndpc t) = [BitVec.ofNat 32 (0x500 + 16 * t.toNat)]) ∧
  (∀ (w : Word) (next : Option Word), w &&& 0xF00#32 = 0x500#32 → decode w next = .ok (.cndpc (w.extractLsb' 4 4))) ∧
  (∀ (s : State) (t : Nibble), exec (.cndpc t) s = .next { s with condpc := t.toNat, pc := s.pc + 1 })

/-- R94. JMP sets pc to its field in every state and leaves condpc alone; a target of CODE_LEN or more faults at the next step, which
reports the target. The ignored a2 is decision D11. -/
def Obligations.JmpSetsThePc : Prop :=
  (∀ t : Nibble, encode (.jmp t) = [BitVec.ofNat 32 (0x600 + 16 * t.toNat)]) ∧
  (∀ (w : Word) (next : Option Word), w &&& 0xF00#32 = 0x600#32 → decode w next = .ok (.jmp (w.extractLsb' 4 4))) ∧
  (∀ (s : State) (t : Nibble), exec (.jmp t) s = .next { s with pc := t.toNat }) ∧
  (∀ (s : State) (t : Nibble), s.run = .running → s.code.length ≤ t.toNat →
    step { s with pc := t.toNat } =
      .next { s with pc := t.toNat, run := .faulted, fault := some ⟨.addressOutOfRange, t.toNat, 0#4⟩ })

/-- R95. JMPEQ goes to condpc when the signed register equals the nibble, a number from 0 to 15, and to pc + 1 otherwise; a negative
register never equals it; when condpc is its own index a taken jump changes nothing at all; a taken jump to CODE_LEN or more
faults at the next step, which reports condpc; with a register out of range it takes RegisterOutOfRange. -/
def Obligations.JmpeqComparesWithTheNibble : Prop :=
  (∀ rA n : Nibble, encode (.jmpeq rA n) = [BitVec.ofNat 32 (0x700 + 16 * rA.toNat + n.toNat)]) ∧
  (∀ (w : Word) (next : Option Word), w &&& 0xF00#32 = 0x700#32 →
    decode w next = .ok (.jmpeq (w.extractLsb' 4 4) (w.extractLsb' 0 4))) ∧
  (∀ (s : State) (rA n : Nibble) (a : Word), s.regs[rA.toNat]? = some a →
    exec (.jmpeq rA n) s = .next { s with pc := if a.toInt = (n.toNat : Int) then s.condpc else s.pc + 1 }) ∧
  (∀ (s : State) (rA n : Nibble) (a : Word), s.regs[rA.toNat]? = some a → a.toInt < 0 →
    exec (.jmpeq rA n) s = .next { s with pc := s.pc + 1 }) ∧
  (∀ (s : State) (rA n : Nibble) (a : Word), s.regs[rA.toNat]? = some a → a.toInt = (n.toNat : Int) → s.condpc = s.pc →
    exec (.jmpeq rA n) s = .next s) ∧
  (∀ s : State, s.run = .running → s.code.length ≤ s.condpc →
    ∃ t : State, step { s with pc := s.condpc } = .next t ∧ t.run = .faulted ∧
      t.fault = some ⟨.addressOutOfRange, s.condpc, 0#4⟩) ∧
  (∀ (s : State) (rA n : Nibble), s.regs.length ≤ rA.toNat →
    ∃ (t : State) (f : FaultRecord), exec (.jmpeq rA n) s = .next t ∧ t.run = .faulted ∧ t.fault = some f ∧ f.kind = .registerOutOfRange ∧
      t.regs = s.regs)

/-- R96. JMPEQW goes to condpc when the register's pattern equals the whole next word and to pc + 2 otherwise; with no next word it takes
AddressOutOfRange with its own pc, whatever its register field; with a register out of range it takes RegisterOutOfRange.
Decisions D5 (pattern equality), D7, D8 and D11. -/
def Obligations.JmpeqwComparesWithTheNextWord : Prop :=
  (∀ (rA : Nibble) (v : Word), encode (.jmpeqw rA v) = [BitVec.ofNat 32 (0x800 + 16 * rA.toNat), v]) ∧
  (∀ w v : Word, w &&& 0xF00#32 = 0x800#32 → decode w (some v) = .ok (.jmpeqw (w.extractLsb' 4 4) v)) ∧
  (∀ (s : State) (rA : Nibble) (v a : Word), s.regs[rA.toNat]? = some a →
    exec (.jmpeqw rA v) s = .next { s with pc := if a = v then s.condpc else s.pc + 2 }) ∧
  (∀ (s : State) (rA : Nibble) (v : Word), s.regs.length ≤ rA.toNat →
    exec (.jmpeqw rA v) s = .next { s with run := .faulted, fault := some ⟨.registerOutOfRange, s.pc, 0#4⟩ }) ∧
  (∀ (s : State) (w : Word), s.run = .running → s.code[s.pc]? = some w → w &&& 0xF00#32 = 0x800#32 →
    s.code.length ≤ s.pc + 1 →
    step s = .next { s with run := .faulted, fault := some ⟨.addressOutOfRange, s.pc, 0#4⟩ })

/-! ### Frames -/

/-- The frame of ADD, LOAD, LOADW and COPY (R15, R79): code memory, condpc, the output and every register but the destination a1 are
unchanged; run and the fault record too, unless a register field is out of range, and then every register and pc are. -/
def Obligations.RegisterWriterFrame : Prop :=
  ∀ (i : Instr) (rA : Nibble) (s t : State),
    ((∃ n, i = .add rA n) ∨ (∃ n, i = .load rA n) ∨ (∃ v, i = .loadw rA v) ∨ (∃ rB, i = .copy rA rB)) →
    exec i s = .next t →
    t.code = s.code ∧ (∀ a, memRead a t = memRead a s) ∧ t.condpc = s.condpc ∧ t.out = s.out ∧
    t.regs.length = s.regs.length ∧
    (∀ q : Nat, q ≠ rA.toNat → t.regs[q]? = s.regs[q]?) ∧
    (i.wellFormed s.regs.length = true → t.run = s.run ∧ t.fault = s.fault) ∧
    (i.wellFormed s.regs.length = false → t.regs = s.regs ∧ t.pc = s.pc)

/-- The frame of CNDPC, JMP, JMPEQ and JMPEQW (R93 to R96): code memory, every register and the output are unchanged, condpc too unless
the instruction is CNDPC; run and the fault record too, unless a register field is out of range, and then pc is. -/
def Obligations.ControlTransferFrame : Prop :=
  ∀ (i : Instr) (s t : State),
    ((∃ x, i = .cndpc x) ∨ (∃ x, i = .jmp x) ∨ (∃ rA n, i = .jmpeq rA n) ∨ (∃ rA v, i = .jmpeqw rA v)) →
    exec i s = .next t →
    t.code = s.code ∧ (∀ a, memRead a t = memRead a s) ∧ t.regs = s.regs ∧ t.out = s.out ∧
    ((∀ x, i ≠ .cndpc x) → t.condpc = s.condpc) ∧
    (i.wellFormed s.regs.length = true → t.run = s.run ∧ t.fault = s.fault) ∧
    (i.wellFormed s.regs.length = false → t.pc = s.pc)

/-- The frame of HALT and PRINT (R82, R83): code memory, every register and condpc are unchanged; the output too for HALT, run and the fault
record for PRINT of a register in range, the output and pc for PRINT of one out of range, the fault record and pc for HALT. -/
def Obligations.SystemFrame : Prop :=
  (∀ s t : State, exec .halt s = .next t →
    t.code = s.code ∧ (∀ a, memRead a t = memRead a s) ∧ t.regs = s.regs ∧ t.condpc = s.condpc ∧ t.pc = s.pc ∧
    t.out = s.out ∧ t.fault = s.fault) ∧
  (∀ (rA : Nibble) (s t : State), exec (.print rA) s = .next t →
    t.code = s.code ∧ (∀ a, memRead a t = memRead a s) ∧ t.regs = s.regs ∧ t.condpc = s.condpc ∧
    (rA.toNat < s.regs.length → t.run = s.run ∧ t.fault = s.fault) ∧
    (s.regs.length ≤ rA.toNat → t.out = s.out ∧ t.pc = s.pc))

/-! ### The step -/

/-- R72 to R74, R79: while run is RUNNING, the step is the meaning of the instruction that the word at pc (and, for a wide form, the word
after it) decodes to. The step adds nothing around it. -/
def Obligations.StepRunsTheDecodedInstruction : Prop :=
  ∀ (s : State) (w : Word) (i : Instr), s.run = .running → s.code[s.pc]? = some w → decode w s.code[s.pc + 1]? = .ok i →
    step s = exec i s

/-- R69: a step is enabled exactly while run is RUNNING; in HALTED and FAULTED the state does not change however long the loop runs; a launched
machine is RUNNING at pc 0. -/
def Obligations.StepIsEnabledExactlyWhileRunning : Prop :=
  (∀ s : State, (∃ t, step s = .next t) ↔ s.run = .running) ∧
  (∀ (s : State) (budget : Nat), s.run ≠ .running → runLoop budget s = s) ∧
  (∀ (n : Nat) (image : Memory) (c : Nat), (State.launch n image c).run = .running ∧ (State.launch n image c).pc = 0)

/-- R72, R99: a pc of CODE_LEN or more takes AddressOutOfRange with that pc and changes nothing else (precision is decision D10, the reported
pc decision D8). -/
def Obligations.PcOutOfRangeFaults : Prop :=
  ∀ s : State, s.run = .running → s.code.length ≤ s.pc →
    step s = .next { s with run := .faulted, fault := some ⟨.addressOutOfRange, s.pc, 0#4⟩ }

/-- R98: a word whose opcode field is 10 to 15 takes InvalidOpcode with its pc and its opcode, whatever its other bits and its successor, and
prints nothing. -/
def Obligations.UndefinedOpcodeFaults : Prop :=
  ∀ (s : State) (w : Word), s.run = .running → s.code[s.pc]? = some w → 10 ≤ w.toNat / 256 % 16 →
    ∃ t : State, step s = .next t ∧ t.run = .faulted ∧ t.fault = some ⟨.invalidOpcode, s.pc, w.extractLsb' 8 4⟩ ∧ t.out = s.out

/-- R16: an instruction with a register field of NREG or more takes RegisterOutOfRange, whatever the field's value, and leaves the registers alone; that
it leaves the output alone is R78 (decision D10). That no instruction faults with every field below NREG is R102 (its ADD clause is
decision D3, log entry 12). -/
def Obligations.RegisterFieldOutOfRangeFaults : Prop :=
  (∀ (i : Instr) (s : State), (∃ r ∈ i.regFields, s.regs.length ≤ r.toNat) →
    ∃ (t : State) (f : FaultRecord), exec i s = .next t ∧ t.run = .faulted ∧ t.fault = some f ∧ f.kind = .registerOutOfRange ∧
      t.regs = s.regs ∧ t.out = s.out) ∧
  (∀ (i : Instr) (s t : State), (∀ r ∈ i.regFields, r.toNat < s.regs.length) → exec i s = .next t →
    t.fault = s.fault ∧ (t.run = s.run ∨ t.run = .halted))

/-- R77, R97, R101, R102: which fault a step takes, in the order of the four checks, and that a step that passes all four takes none. The
order of the last two checks is decision D7, the reported pc decision D8. -/
def Obligations.FirstFailingCheckDecidesTheFault : Prop :=
  ∀ (s t : State), step s = .next t →
    t.fault =
      match s.code[s.pc]? with
      | none => some ⟨.addressOutOfRange, s.pc, 0#4⟩
      | some w =>
        if 10 ≤ w.toNat / 256 % 16 then some ⟨.invalidOpcode, s.pc, w.extractLsb' 8 4⟩
        else if (w.toNat / 256 % 16 = 3 ∨ w.toNat / 256 % 16 = 8) ∧ s.code.length ≤ s.pc + 1 then
          some ⟨.addressOutOfRange, s.pc, 0#4⟩
        else if w.toNat / 256 % 16 ∈ [1, 2, 3, 4, 7, 8, 9] ∧ s.regs.length ≤ w.toNat / 16 % 16 then
          some ⟨.registerOutOfRange, s.pc, 0#4⟩
        else if w.toNat / 256 % 16 = 4 ∧ s.regs.length ≤ w.toNat % 16 then some ⟨.registerOutOfRange, s.pc, 0#4⟩
        else s.fault

/-- R105, R78, R101: taking a fault changes run and the fault record and nothing else, and the record holds the pc at which the step began, with
opcode 0 unless the kind is InvalidOpcode (precision is decision D10, the reported pc decision D8). -/
def Obligations.FaultsArePrecise : Prop :=
  ∀ s t : State, step s = .next t → t.run = .faulted →
    t = { s with run := .faulted, fault := t.fault } ∧
    ∃ (k : FaultKind) (op : Nibble), t.fault = some ⟨k, s.pc, op⟩ ∧ (k ≠ .invalidOpcode → op = 0#4)

/-- R80: the next pc of every instruction that does not fault (HALT's is decision D12). -/
def Obligations.NextPcTable : Prop :=
  ∀ (i : Instr) (s t : State), i.wellFormed s.regs.length = true → exec i s = .next t →
    t.pc =
      match i with
      | .halt => s.pc
      | .add _ _ | .load _ _ | .copy _ _ | .cndpc _ | .print _ => s.pc + 1
      | .loadw _ _ => s.pc + 2
      | .jmp x => x.toNat
      | .jmpeq rA n => if s.regs[rA.toNat]?.map BitVec.toInt = some (n.toNat : Int) then s.condpc else s.pc + 1
      | .jmpeqw rA v => if s.regs[rA.toNat]? = some v then s.condpc else s.pc + 2

/-- The whole step is the listing of section 5 of spec/40_execution_engine.md, which is written with plain numbers, without the decoder, the instructions
and the operations of the model (R69 to R79 and the instruction rules). -/
def Obligations.StepIsTheListing : Prop :=
  ∀ s : State, s.run = .running → step s = .next (Listing.step s)

/-! ### Rules over the whole machine -/

/-- R39, R33: however long the machine runs, code memory stays as it was; no request of the host but a load changes it, no move of the run loop does, and a
load is turned away once a step has been performed (the load port's phase is log entry 8). That it is turned away during a loop that has
performed no step yet, and that the answer is loadClosed whatever the image, are the model's choices (log entries 20 and 19). -/
def Obligations.CodeMemoryIsReadOnly : Prop :=
  (∀ (s : State) (budget : Nat), (runLoop budget s).code = s.code) ∧
  (∀ (i : Instr) (s t : State), exec i s = .next t → t.code = s.code) ∧
  (∀ (b : Block) (q : HostRequest), (∀ image, q ≠ .load image) → (b.request q).1.state.code = b.state.code) ∧
  (∀ b : Block, b.tick.1.state.code = b.state.code) ∧
  (∀ (b : Block) (image : List Nat), b.phase = .started ∨ b.loop ≠ .idle → b.request (.load image) = (b, .refused .loadClosed))

/-- R17: the register file has one fixed set of NREG registers for the life of the instance: no step, no run of any length, no request of the host and no move of the run
loop changes their number. -/
def Obligations.RegisterCountIsFixed : Prop :=
  (∀ s t : State, step s = .next t → t.regs.length = s.regs.length) ∧
  (∀ (s : State) (budget : Nat), (runLoop budget s).regs.length = s.regs.length) ∧
  (∀ (b : Block) (q : HostRequest), (b.request q).1.state.regs.length = b.state.regs.length) ∧
  (∀ b : Block, b.tick.1.state.regs.length = b.state.regs.length)

/-- R15: a step that changes the register file executes ADD, LOAD, LOADW or COPY and changes no register but x[a1]. -/
def Obligations.OnlyFourInstructionsWriteRegisters : Prop :=
  ∀ s t : State, step s = .next t → t.regs ≠ s.regs →
    ∃ w : Word, s.code[s.pc]? = some w ∧ w.toNat / 256 % 16 ∈ [1, 2, 3, 4] ∧
      ∀ q : Nat, q ≠ w.toNat / 16 % 16 → t.regs[q]? = s.regs[q]?

/-- R23: a step that changes condpc executes CNDPC and writes its a1, 0 to 15. -/
def Obligations.OnlyCndpcWritesCondpc : Prop :=
  ∀ s t : State, step s = .next t → t.condpc ≠ s.condpc →
    ∃ w : Word, s.code[s.pc]? = some w ∧ w.toNat / 256 % 16 = 5 ∧ t.condpc = w.toNat / 16 % 16 ∧ t.condpc ≤ 15

/-- R28: the output is empty at launch; a step that changes it executes PRINT and appends the one value of x[a1]; no run removes or changes a value. -/
def Obligations.OnlyPrintAppendsToTheOutput : Prop :=
  (∀ (n : Nat) (image : Memory) (c : Nat), (State.launch n image c).out = []) ∧
  (∀ s t : State, step s = .next t → t.out ≠ s.out →
    ∃ w v : Word, s.code[s.pc]? = some w ∧ w.toNat / 256 % 16 = 9 ∧ s.regs[w.toNat / 16 % 16]? = some v ∧
      t.out = s.out ++ [v]) ∧
  (∀ (s : State) (budget : Nat), s.out <+: (runLoop budget s).out)

/-- R24: only HALT moves run from RUNNING to HALTED, only a fault moves it to FAULTED (a step that leaves a new record), and no loop moves it from a
terminal state. -/
def Obligations.OnlyHaltAndFaultsEndARun : Prop :=
  (∀ s t : State, step s = .next t → t.run = .halted → ∃ w : Word, s.code[s.pc]? = some w ∧ w.toNat / 256 % 16 = 0) ∧
  (∀ s t : State, step s = .next t → t.run = .faulted → ∃ f : FaultRecord, t.fault = some f ∧ f.fpc = s.pc) ∧
  (∀ (s : State) (budget : Nat), s.run ≠ .running → (runLoop budget s).run = s.run)

/-- Every step keeps the invariant of a run launched with condpc at c: a legal register count, a fault record exactly in FAULTED that tells the truth about
code memory and registers, a HALT at the pc in HALTED, and the bounds of pc and condpc (R14, R17, R20, R23, R24, R25, R101). The bounds are the spec's
own derivation, the record's contents rest on decisions D7, D8 and D10. -/
def Obligations.StepKeepsInv : Prop :=
  ∀ (c : Nat) (s t : State), State.Inv c s → step s = .next t → State.Inv c t

/-- The invariant holds at launch, for every legal register count, image and launch value, and at the model's reset. -/
def Obligations.InvHoldsAtReset : Prop :=
  (∀ (n : Nat) (image : Memory) (c : Nat), 1 ≤ n → n ≤ 16 → State.Inv c (State.launch n image c)) ∧
  State.Inv Config.condpc0 State.reset

/-- R120, R121: a run that takes no equality jump before its first CNDPC within the budget does not depend on condpc's launch value: started with any other value
it shows the same registers, pc, run, record, output and code memory (the spec marks this as derived). -/
def Obligations.LaunchCondpcMattersOnlyToAnEarlyJump : Prop :=
  ∀ (budget : Nat) (s : State) (c : Nat), usesLaunchCondpc budget s = false →
    SameButCondpc (runLoop budget s) (runLoop budget { s with condpc := c })

/-- R123: an equality jump that follows a CNDPC and is taken goes to the value that CNDPC wrote, for the narrow and the wide form (the spec marks this
as derived). -/
def Obligations.CndpcIsSeenByTheNextJump : Prop :=
  ∀ (s : State) (w w' : Word) (x : Nibble), s.run = .running → s.code[s.pc]? = some w →
    decode w s.code[s.pc + 1]? = .ok (.cndpc x) → s.code[s.pc + 1]? = some w' →
    (w'.toNat / 256 % 16 = 7 ∧ s.regs[w'.toNat / 16 % 16]?.map BitVec.toNat = some (w'.toNat % 16) ∨
      w'.toNat / 256 % 16 = 8 ∧ ∃ v, s.code[s.pc + 2]? = some v ∧ s.regs[w'.toNat / 16 % 16]? = some v) →
    runLoop 2 s = { s with condpc := x.toNat, pc := x.toNat }

/-- R127: a JMP to its own index, in any encoding, runs forever with the state unchanged: every budget is used up and run is still RUNNING. -/
def Obligations.JumpToItselfRunsForever : Prop :=
  ∀ (s : State) (w : Word), s.run = .running → s.code[s.pc]? = some w → w.toNat / 256 % 16 = 6 → w.toNat / 16 % 16 = s.pc →
    ∀ budget : Nat, runLoop budget s = s ∧ stepsTaken budget s = budget

/-- R115, R71: a later run request continues where an earlier one stopped; the loop performs at most its budget of steps, and fewer only when run has left
RUNNING. The budget is decision D22. -/
def Obligations.BudgetedRunsResume : Prop :=
  (∀ (a b : Nat) (s : State), runLoop (a + b) s = runLoop b (runLoop a s)) ∧
  (∀ (budget : Nat) (s : State), stepsTaken budget s ≤ budget) ∧
  (∀ (budget : Nat) (s : State), stepsTaken budget s < budget → (runLoop budget s).run ≠ .running) ∧
  (∀ (budget : Nat) (s : State), (runLoop budget s).run = .running → stepsTaken budget s = budget)

/-- R126, R81: a run that ends, ends in one state, and no further budget changes it. -/
def Obligations.RunsEndInOneState : Prop :=
  ∀ s t u : State, RunEndsIn s t → RunEndsIn s u → t = u ∧ ∀ budget : Nat, runLoop budget t = t

/-! ### Encoding -/

/-- R58, R64: decoding the canonical words of any instruction gives it back, with every operand at every value, whatever follows a one-word form. -/
def Obligations.DecodeOfEncode : Prop :=
  ∀ (i : Instr) (after : List Word),
    ∃ (w : Word) (rest : List Word), encode i = w :: rest ∧ decode w (rest ++ after).head? = .ok i

/-- R58, R66 in the other direction: re-encoding what a word decodes to keeps exactly the bits its form uses; bits 31..12 and the ignored fields become
0 and the wide immediate is kept whole. The ignored fields are decision D11. -/
def Obligations.EncodeOfDecode : Prop :=
  ∀ (w : Word) (next : Option Word) (i : Instr), decode w next = .ok i →
    encode i =
      match i with
      | .halt => [0#32]
      | .add _ _ | .load _ _ | .copy _ _ | .jmpeq _ _ => [w &&& 0xFFF#32]
      | .cndpc _ | .jmp _ | .print _ => [w &&& 0xFF0#32]
      | .loadw _ v | .jmpeqw _ v => [w &&& 0xFF0#32, v]

/-- R52: LOADW and JMPEQW are two words long and all others one, in the encoder's words and by the opcode field of the word decoded. -/
def Obligations.OpcodeAloneGivesTheLength : Prop :=
  (∀ i : Instr, (encode i).length =
    match i with
    | .loadw _ _ | .jmpeqw _ _ => 2
    | _ => 1) ∧
  (∀ (w : Word) (next : Option Word) (i : Instr), decode w next = .ok i →
    i.words = if w.toNat / 256 % 16 = 3 ∨ w.toNat / 256 % 16 = 8 then 2 else 1) ∧
  (∀ w : Word, (∃ e, decode w none = .error e ∧ ∀ v, ∃ i, decode w (some v) = .ok i) ↔
    w.toNat / 256 % 16 = 3 ∨ w.toNat / 256 % 16 = 8)

/-- R66: bits 31..12 never matter, and neither does a field the form ignores (decision D11). -/
def Obligations.IgnoredBitsDoNotMatter : Prop :=
  (∀ (w w' : Word) (next : Option Word), w &&& 0xFFF#32 = w' &&& 0xFFF#32 → decode w next = decode w' next) ∧
  (∀ (w w' : Word) (next : Option Word), w &&& 0xFF0#32 = w' &&& 0xFF0#32 → w.toNat / 256 % 16 ∈ [3, 5, 6, 8, 9] →
    decode w next = decode w' next) ∧
  (∀ (w w' : Word) (next next' : Option Word), w &&& 0xF00#32 = w' &&& 0xF00#32 → w.toNat / 256 % 16 = 0 →
    decode w next = decode w' next')

/-- R54, R55, R56, R58: the encoder takes each input mod 16 and never fails, the decoder reads the fields back, and packing a word's decoded fields gives its low 12
bits. Negative inputs are decision D27, the last clause is the spec's own derivation. -/
def Obligations.EncoderAndDecoderAreInverse : Prop :=
  (∀ op a1 a2 : Int,
    ((decodeOpcode (encodeUnit op a1 a2)).toNat : Int) = op % 16 ∧ ((decodeArg1 (encodeUnit op a1 a2)).toNat : Int) = a1 % 16 ∧
    ((decodeArg2 (encodeUnit op a1 a2)).toNat : Int) = a2 % 16 ∧ (encodeUnit op a1 a2).toNat < 2 ^ 12) ∧
  (∀ w : Word, encodeUnit (decodeOpcode w).toNat (decodeArg1 w).toNat (decodeArg2 w).toNat = w &&& 0xFFF#32)

/-- The words of spec/95_test_vectors.md and of the instruction rules' examples decode to the instructions they stand for. -/
def Obligations.SpecWordsDecode : Prop :=
  decode 0x570#32 none = .ok (.cndpc 7) ∧ decode 0x300#32 (some 0x00000000#32) = .ok (.loadw 0 0) ∧
  decode 0x101#32 none = .ok (.add 0 1) ∧ decode 0x800#32 (some 0x000F4240#32) = .ok (.jmpeqw 0 1000000) ∧
  decode 0x630#32 none = .ok (.jmp 3) ∧ decode 0x900#32 none = .ok (.print 0) ∧ decode 0x000#32 none = .ok .halt ∧
  decode 0x215#32 none = .ok (.load 1 5) ∧ decode 0x410#32 none = .ok (.copy 1 0) ∧ decode 0x714#32 none = .ok (.jmpeq 1 4) ∧
  decode 0x12345678#32 none = .ok (.jmp 7) ∧ decode 0xFFFFF0FF#32 none = .ok .halt ∧
  decode 0xFFFFFA5C#32 none = .error (.invalidOpcode 10)

/-- R68 (decision D21, log entry 13): a line of the notation whose operands fit assembles to the canonical words of its instruction, and a line with an operand
that does not fit is refused, for the one-register, two-field and wide forms. -/
def Obligations.AssemblerEmitsCanonicalWords : Prop :=
  assemble .halt = some (encode .halt) ∧
  (∀ a n : Nibble,
    assemble (.add a.toNat n.toNat) = some (encode (.add a n)) ∧ assemble (.load a.toNat n.toNat) = some (encode (.load a n)) ∧
    assemble (.copy a.toNat n.toNat) = some (encode (.copy a n)) ∧ assemble (.jmpeq a.toNat n.toNat) = some (encode (.jmpeq a n)) ∧
    assemble (.cndpc a.toNat) = some (encode (.cndpc a)) ∧ assemble (.jmp a.toNat) = some (encode (.jmp a)) ∧
    assemble (.print a.toNat) = some (encode (.print a))) ∧
  (∀ (a : Nibble) (v : Word),
    assemble (.loadw a.toNat v.toNat) = some (encode (.loadw a v)) ∧ assemble (.loadw a.toNat v.toInt) = some (encode (.loadw a v)) ∧
    assemble (.jmpeqw a.toNat v.toNat) = some (encode (.jmpeqw a v)) ∧ assemble (.jmpeqw a.toNat v.toInt) = some (encode (.jmpeqw a v)) ∧
    assemble (.word v.toNat) = some [v]) ∧
  (∀ a n : Nat, 16 ≤ a ∨ 16 ≤ n →
    assemble (.add a n) = none ∧ assemble (.load a n) = none ∧ assemble (.copy a n) = none ∧ assemble (.jmpeq a n) = none) ∧
  (∀ a : Nat, 16 ≤ a → assemble (.cndpc a) = none ∧ assemble (.jmp a) = none ∧ assemble (.print a) = none) ∧
  (∀ (a : Nat) (v : Int), 16 ≤ a ∨ v < -(2 ^ 31) ∨ 2 ^ 32 ≤ v → assemble (.loadw a v) = none ∧ assemble (.jmpeqw a v) = none) ∧
  (∀ v : Nat, 2 ^ 32 ≤ v → assemble (.word v) = none)

/-- What step fetches from a state in which the host placed one table word is the instruction the decoder reads from that word (log entries 6 and 7). -/
def Obligations.PlacedWordRunsNext : Prop :=
  ∀ (s : State) (nbits w : Nat) (i : Instr), decodeTableWord nbits w = some i →
    step (s.withFetchWord nbits w) = exec i (s.withFetchWord nbits w)

/-! ### Units and memory -/

/-- R84: the adder's output is the 32-bit value congruent to the exact sum of the signed operand and the nibble from 0 to 15, so it is that sum where it fits and 2^32 less
where it does not (the wrap is decision D3, no sign extension is conflict C3). -/
def Obligations.AdderUnitWraps : Prop :=
  ∀ (a : Word) (n : Nibble),
    (adder a n).toInt =
      if a.toInt + (n.toNat : Int) < 2 ^ 31 then a.toInt + (n.toNat : Int) else a.toInt + (n.toNat : Int) - 2 ^ 32

/-- R92, R59: the comparator compares 32-bit patterns, which for a nibble is integer equality of the signed register with a number from 0 to 15 (decision D5). -/
def Obligations.ComparatorComparesPatterns : Prop :=
  (∀ a b : Word, comparator a b = true ↔ a.toNat = b.toNat) ∧
  (∀ (a : Word) (n : Nibble), comparator a (imm4 n) = true ↔ a.toInt = (n.toNat : Int))

/-- R37, R40, R42: an index below CODE_LEN reads the image's word and any other reads none, in every state, and a step changes no read. -/
def Obligations.CodeReadsAreBounded : Prop :=
  (∀ (a : Nat) (s : State), memRead a s = none ↔ s.code.length ≤ a) ∧
  (∀ (a : Nat) (s : State) (h : a < s.code.length), memRead a s = some s.code[a]) ∧
  (∀ (a : Nat) (s t : State), step s = .next t → memRead a t = memRead a s)

/-! ### The host's side -/

/-- R38 (decisions D13, D14; log entries 8 and 9): while no step has been performed and no loop is in progress, an image is accepted exactly when it has at most CODE_CAP words, each a 32-bit pattern; it then is the
code memory, word for word, and nothing else changes; a refused image leaves the state as it was and the engine does not start, with or without a budget. -/
def Obligations.LoadAcceptsExactlyTheLegalImages : Prop :=
  ∀ (b : Block) (image : List Nat), b.phase ≠ .started → b.loop = .idle →
    ((image.length ≤ b.codeCap ∧ ∀ w ∈ image, w < 2 ^ 32) →
      (b.request (.load image)).2 = .accepted ∧
      (b.request (.load image)).1.state = { b.state with code := (b.request (.load image)).1.state.code } ∧
      (b.request (.load image)).1.state.code.map BitVec.toNat = image) ∧
    (¬ (image.length ≤ b.codeCap ∧ ∀ w ∈ image, w < 2 ^ 32) →
      (∃ r, (b.request (.load image)).2 = .refused r) ∧ (b.request (.load image)).1.state = b.state ∧
      ∀ budget : Option Nat, ((b.request (.load image)).1.request (.run budget)).2 = .refused .noImage ∧
        ((b.request (.load image)).1.request (.run budget)).1.state = b.state ∧
        ((b.request (.load image)).1.request (.run budget)).1.loop = .idle)

/-- R5, R114, U10 (decision D15): construction succeeds exactly for 1 to 16 registers, and gives a block that meets the block's invariant. -/
def Obligations.ConstructionFixesTheSizes : Prop :=
  ∀ n cap c : Nat,
    ((1 ≤ n ∧ n ≤ 16) →
      ∃ b : Block, Block.construct n cap c = .ok b ∧ Block.Inv b ∧ b.codeCap = cap ∧ b.state.regs.length = n ∧ b.state.condpc = c) ∧
    (¬ (1 ≤ n ∧ n ≤ 16) → Block.construct n cap c = .error .registerCount)

/-- Every request of the host and every move of the run loop keeps the block's invariant: code memory within CODE_CAP, a legal register count, a true record, no step performed while the
load port is open, and no loop in progress without an accepted image (R33, R38, R114, R118; log entries 8, 9, 10 and 20). -/
def Obligations.HostRequestsKeepTheBlockInv : Prop :=
  ∀ b : Block, Block.Inv b → (∀ q : HostRequest, Block.Inv (b.request q).1) ∧ Block.Inv b.tick.1

/-- R26 (decision D9): the status word of every state that meets the invariant: its codes, the fields that are 0 without a fault, and that run is never 3. -/
def Obligations.StatusWordEncoding : Prop :=
  ∀ (c : Nat) (s : State), State.Inv c s →
    (s.run = .running → statusWord s = ⟨0, 0, 0, 0⟩) ∧ (s.run = .halted → statusWord s = ⟨1, 0, 0, 0⟩) ∧
    (s.run = .faulted → ∃ f : FaultRecord, s.fault = some f ∧ (statusWord s).run = 2 ∧ (statusWord s).kind ≠ 0 ∧
      (statusWord s).fpc = s.pc ∧ (f.kind = .invalidOpcode → statusWord s = ⟨2, 1, s.pc, f.fopcode⟩) ∧
      (f.kind = .addressOutOfRange → statusWord s = ⟨2, 2, s.pc, 0⟩) ∧
      (f.kind = .registerOutOfRange → statusWord s = ⟨2, 3, s.pc, 0⟩)) ∧
    (statusWord s).run ≠ 3

/-- R116 (decision D16, log entry 14): the line of a value is an optional minus sign for a negative value, decimal digits with no leading zero that spell its magnitude, and one newline. -/
def Obligations.RenderedLineSpellsTheValue : Prop :=
  ∀ v : Word, ∃ ds : List Char,
    renderValue v = (if v.toInt < 0 then ['-'] else []) ++ ds ++ ['\n'] ∧ ds ≠ [] ∧ (∀ d ∈ ds, d.isDigit = true) ∧
    (ds.head? = some '0' → ds = ['0']) ∧ ds.foldl (fun acc d => 10 * acc + (d.toNat - 48)) 0 = v.toInt.natAbs

/-! ### Run requests and the loop -/

/-- R114, R115 (decision D22): a run request with a budget, on a block with an accepted image and no loop in progress, starts a loop that performs its steps one move at a time and then
returns; until then the loop is in progress, and at the return the block is that of the whole run in one move, the host has received the output values in order, and the status is that of
the state the loop left. That a request in HALTED or FAULTED is accepted, and that the load port stays open after a run of no step, are the model's choices (log entries 20 and 8). -/
def Obligations.BudgetedRunRequestReturns : Prop :=
  ∀ (b : Block) (budget : Nat), b.phase ≠ .awaitingImage → b.loop = .idle →
    ∃ c : Block, b.request (.run (some budget)) = (c, .accepted) ∧
      (∀ m, m ≤ stepsTaken budget b.state → (Block.ticks m c).loop ≠ .idle ∧ (Block.ticks m c).state = runLoop m b.state) ∧
      (Block.ticks (stepsTaken budget b.state) c).tick =
        ({ b with state := runLoop budget b.state, phase := if stepsTaken budget b.state = 0 then b.phase else .started },
          .returned (statusWord (runLoop budget b.state))) ∧
      b.runFor budget = (Block.ticks (stepsTaken budget b.state + 1) c, none) ∧
      Block.received (stepsTaken budget b.state + 1) c = outputsSince b.state (runLoop budget b.state)

/-- R114, R115, R71, R127: a run request without a budget, on a block with an accepted image and no loop in progress, starts a loop that returns exactly when the run ends; it returns in the
state in which the run ends, with its status, and the host has received the output values in order; while the loop is in progress each move is one more step. That a request in HALTED or
FAULTED is accepted is the model's choice (log entry 20). -/
def Obligations.UnbudgetedRunRequestReturnsExactlyAtTheEnd : Prop :=
  ∀ b : Block, b.phase ≠ .awaitingImage → b.loop = .idle →
    ∃ c : Block, b.request (.run none) = (c, .accepted) ∧
      (∀ n, (Block.ticks n c).state = runLoop n b.state ∧ Block.received n c = outputsSince b.state (runLoop n b.state)) ∧
      ((∃ n, (Block.ticks n c).loop = .idle) ↔ ∃ t, RunEndsIn b.state t) ∧
      (∀ n, (Block.ticks n c).loop = .idle → RunEndsIn b.state (Block.ticks n c).state) ∧
      (∀ (n : Nat) (w : StatusWord), (Block.ticks n c).tick.2 = .returned w →
        w = statusWord (runLoop n b.state) ∧ (runLoop n b.state).run ≠ .running)

/-- R34, R114: a move of the loop that executes PRINT gives the host one output value, the signed value of the register it prints; a move that executes anything else, or a PRINT that faults,
gives none. -/
def Obligations.EachPrintIsOneOutputEvent : Prop :=
  ∀ (b : Block) (w : Word), b.loop = .unbudgeted ∨ (∃ left, b.loop = .budgeted (left + 1)) → b.state.run = .running →
    b.state.code[b.state.pc]? = some w →
    b.tick.2 = .stepped (
      if w.toNat / 256 % 16 = 9 then
        match b.state.regs[w.toNat / 16 % 16]? with
        | some v => [v.toInt]
        | none => []
      else [])

/-- R35, R114 (decision D26): the status is read at any time and changes nothing; registers, pc and condpc are read when no loop is in progress; a reset between two steps discards the run, whose
loop is over. That inspection answers before the first run too is the model's choice (log entry 18); that a run and an inspection during a loop are refused by name is log entry 20. -/
def Obligations.HostReadsAndResetBetweenSteps : Prop :=
  (∀ b : Block, b.request .readStatus = (b, .status (statusWord b.state))) ∧
  (∀ b : Block, b.loop = .idle →
    b.request .inspect = (b, .inspection { x := b.state.regs.map BitVec.toInt, pc := b.state.pc, condpc := b.state.condpc })) ∧
  (∀ (b : Block) (budget : Option Nat), b.loop ≠ .idle → b.phase ≠ .awaitingImage →
    b.request .inspect = (b, .refused .loopRunning) ∧ b.request (.run budget) = (b, .refused .loopRunning)) ∧
  (∀ (b : Block) (c n : Nat),
    (Block.ticks n (b.request (.reset c)).1).state = State.launch b.state.regs.length b.state.code c ∧
    Block.received n (b.request (.reset c)).1 = [])
end

