-- ==== Sys2Proof/Laws/Decode.lean ====
section
/-! SUPPORT. The decoder and encoder units as number facts, and what the decoder can answer. -/

namespace Sys2Proof

/-- The three fields as numbers, by the formula of R7. -/
theorem decodeOpcode_toNat (w : Word) : (decodeOpcode w).toNat = w.toNat / 2 ^ 8 % 16 := by
  simp [decodeOpcode, Nat.shiftRight_eq_div_pow]

theorem decodeArg1_toNat (w : Word) : (decodeArg1 w).toNat = w.toNat / 2 ^ 4 % 16 := by
  simp [decodeArg1, Nat.shiftRight_eq_div_pow]

theorem decodeArg2_toNat (w : Word) : (decodeArg2 w).toNat = w.toNat % 16 := by
  simp [decodeArg2]

/-- Packing three nibbles with shifts and ors is the base-16 number they spell. -/
theorem pack_nibbles (a b c : Nat) (hb : b < 16) (hc : c < 16) :
    (a <<< 8) ||| (b <<< 4) ||| c = a * 256 + b * 16 + c := by
  have h1 : (a <<< 8) ||| (b <<< 4) = a <<< 8 + b <<< 4 :=
    (Nat.shiftLeft_add_eq_or_of_lt (by simp [Nat.shiftLeft_eq]; omega) a).symm
  have h2 : (a <<< 8 + b <<< 4) = (a * 16 + b) <<< 4 := by simp [Nat.shiftLeft_eq]; ring
  rw [h1, h2, ← Nat.shiftLeft_add_eq_or_of_lt (by omega)]
  simp [Nat.shiftLeft_eq]
  ring

/-- The encoder unit as a number (R54). -/
theorem encodeUnit_toNat (op a1 a2 : Int) :
    (encodeUnit op a1 a2).toNat = (op % 16).toNat * 256 + (a1 % 16).toNat * 16 + (a2 % 16).toNat := by
  unfold encodeUnit
  rw [pack_nibbles _ _ _ (by omega) (by omega), BitVec.toNat_ofNat]
  omega

theorem encodeFields_toNat (op a1 a2 : Nibble) :
    (encodeFields op a1 a2).toNat = op.toNat * 256 + a1.toNat * 16 + a2.toNat := by
  have := op.isLt
  have := a1.isLt
  have := a2.isLt
  rw [encodeFields, encodeUnit_toNat]
  omega

theorem decodeOpcode_encodeFields (op a1 a2 : Nibble) : decodeOpcode (encodeFields op a1 a2) = op := by
  apply BitVec.eq_of_toNat_eq
  have := op.isLt
  have := a1.isLt
  have := a2.isLt
  rw [decodeOpcode_toNat, encodeFields_toNat]
  omega

theorem decodeArg1_encodeFields (op a1 a2 : Nibble) : decodeArg1 (encodeFields op a1 a2) = a1 := by
  apply BitVec.eq_of_toNat_eq
  have := op.isLt
  have := a1.isLt
  have := a2.isLt
  rw [decodeArg1_toNat, encodeFields_toNat]
  omega

theorem decodeArg2_encodeFields (op a1 a2 : Nibble) : decodeArg2 (encodeFields op a1 a2) = a2 := by
  apply BitVec.eq_of_toNat_eq
  have := op.isLt
  have := a1.isLt
  have := a2.isLt
  rw [decodeArg2_toNat, encodeFields_toNat]
  omega

/-- `w & 0xF00` is the opcode field in its place, so the match and mask of R64 select by the opcode field. -/
theorem mask_toNat (w : Word) : (w &&& 0xF00#32).toNat = w.toNat / 2 ^ 8 % 16 * 256 := by
  have h : w &&& 0xF00#32 = (decodeOpcode w).setWidth 32 <<< 8 := by
    apply BitVec.eq_of_getLsbD_eq
    intro i hi
    simp only [decodeOpcode, BitVec.getLsbD_and, BitVec.getLsbD_shiftLeft, BitVec.getLsbD_setWidth, BitVec.getLsbD_extractLsb']
    interval_cases i <;> simp
  have hlt := (decodeOpcode w).isLt
  rw [h, BitVec.toNat_shiftLeft, BitVec.toNat_setWidth, decodeOpcode_toNat] at *
  rw [Nat.shiftLeft_eq]
  omega

theorem mask_eq_iff (w : Word) (op : Nibble) : w &&& 0xF00#32 = BitVec.ofNat 32 (op.toNat * 256) ↔ decodeOpcode w = op := by
  have hop := op.isLt
  constructor
  · intro h
    apply BitVec.eq_of_toNat_eq
    have h' := congrArg BitVec.toNat h
    rw [mask_toNat, BitVec.toNat_ofNat] at h'
    rw [decodeOpcode_toNat]
    omega
  · intro h
    apply BitVec.eq_of_toNat_eq
    have h' := congrArg BitVec.toNat h
    rw [decodeOpcode_toNat] at h'
    rw [mask_toNat, BitVec.toNat_ofNat]
    omega

/-- Everything the decoder can answer: the opcode field says which. -/
theorem decode_cases (w : Word) (next : Option Word) :
    (decodeOpcode w = 0 ∧ decode w next = .ok .halt) ∨
    (decodeOpcode w = 1 ∧ decode w next = .ok (.add (decodeArg1 w) (decodeArg2 w))) ∨
    (decodeOpcode w = 2 ∧ decode w next = .ok (.load (decodeArg1 w) (decodeArg2 w))) ∨
    (decodeOpcode w = 3 ∧ ((next = none ∧ decode w next = .error .missingImmediate) ∨
      ∃ v, next = some v ∧ decode w next = .ok (.loadw (decodeArg1 w) v))) ∨
    (decodeOpcode w = 4 ∧ decode w next = .ok (.copy (decodeArg1 w) (decodeArg2 w))) ∨
    (decodeOpcode w = 5 ∧ decode w next = .ok (.cndpc (decodeArg1 w))) ∨
    (decodeOpcode w = 6 ∧ decode w next = .ok (.jmp (decodeArg1 w))) ∨
    (decodeOpcode w = 7 ∧ decode w next = .ok (.jmpeq (decodeArg1 w) (decodeArg2 w))) ∨
    (decodeOpcode w = 8 ∧ ((next = none ∧ decode w next = .error .missingImmediate) ∨
      ∃ v, next = some v ∧ decode w next = .ok (.jmpeqw (decodeArg1 w) v))) ∨
    (decodeOpcode w = 9 ∧ decode w next = .ok (.print (decodeArg1 w))) ∨
    (10 ≤ (decodeOpcode w).toNat ∧ decode w next = .error (.invalidOpcode (decodeOpcode w))) := by
  have h16 : ∀ op : Nibble, op = 0 ∨ op = 1 ∨ op = 2 ∨ op = 3 ∨ op = 4 ∨ op = 5 ∨ op = 6 ∨ op = 7 ∨ op = 8 ∨ op = 9 ∨
      op = 10 ∨ op = 11 ∨ op = 12 ∨ op = 13 ∨ op = 14 ∨ op = 15 := by decide
  rcases h16 (decodeOpcode w) with h | h | h | h | h | h | h | h | h | h | h | h | h | h | h | h <;>
    cases next <;> simp [decode, h]

/-- Decoding by the opcode field, one lemma per row of R64. -/
theorem decode_halt {w : Word} (next : Option Word) (h : decodeOpcode w = 0) : decode w next = .ok .halt := by
  simp [decode, h]

theorem decode_add {w : Word} (next : Option Word) (h : decodeOpcode w = 1) :
    decode w next = .ok (.add (decodeArg1 w) (decodeArg2 w)) := by simp [decode, h]

theorem decode_load {w : Word} (next : Option Word) (h : decodeOpcode w = 2) :
    decode w next = .ok (.load (decodeArg1 w) (decodeArg2 w)) := by simp [decode, h]

theorem decode_loadw {w : Word} (v : Word) (h : decodeOpcode w = 3) :
    decode w (some v) = .ok (.loadw (decodeArg1 w) v) := by simp [decode, h]

theorem decode_copy {w : Word} (next : Option Word) (h : decodeOpcode w = 4) :
    decode w next = .ok (.copy (decodeArg1 w) (decodeArg2 w)) := by simp [decode, h]

theorem decode_cndpc {w : Word} (next : Option Word) (h : decodeOpcode w = 5) :
    decode w next = .ok (.cndpc (decodeArg1 w)) := by simp [decode, h]

theorem decode_jmp {w : Word} (next : Option Word) (h : decodeOpcode w = 6) :
    decode w next = .ok (.jmp (decodeArg1 w)) := by simp [decode, h]

theorem decode_jmpeq {w : Word} (next : Option Word) (h : decodeOpcode w = 7) :
    decode w next = .ok (.jmpeq (decodeArg1 w) (decodeArg2 w)) := by simp [decode, h]

theorem decode_jmpeqw {w : Word} (v : Word) (h : decodeOpcode w = 8) :
    decode w (some v) = .ok (.jmpeqw (decodeArg1 w) v) := by simp [decode, h]

theorem decode_print {w : Word} (next : Option Word) (h : decodeOpcode w = 9) :
    decode w next = .ok (.print (decodeArg1 w)) := by simp [decode, h]

/-- A wide opcode with no next word. -/
theorem decode_missing {w : Word} (h : decodeOpcode w = 3 ∨ decodeOpcode w = 8) :
    decode w none = .error .missingImmediate := by
  rcases h with h | h <;> simp [decode, h]

/-- An undefined opcode, whatever the next word. -/
theorem decode_invalid {w : Word} (next : Option Word) (h : 10 ≤ (decodeOpcode w).toNat) :
    decode w next = .error (.invalidOpcode (decodeOpcode w)) := by
  rcases decode_cases w next with
    ⟨e, -⟩ | ⟨e, -⟩ | ⟨e, -⟩ | ⟨e, -⟩ | ⟨e, -⟩ | ⟨e, -⟩ | ⟨e, -⟩ | ⟨e, -⟩ | ⟨e, -⟩ | ⟨e, -⟩ | ⟨-, e⟩
  all_goals first | exact e | (rw [e] at h; simp at h)

end Sys2Proof
end

