-- ==== Sys2Proof/Laws/State.lean ====
section
/-! SUPPORT. One lemma per field per update of State (true by rfl), so that no later proof unfolds a record update. -/

namespace Sys2Proof.Machine

@[simp] theorem regWrite_regs (r : Nibble) (v : Word) (s : State) : (regWrite r v s).regs = s.regs.set r.toNat v := rfl
@[simp] theorem regWrite_code (r : Nibble) (v : Word) (s : State) : (regWrite r v s).code = s.code := rfl
@[simp] theorem regWrite_pc (r : Nibble) (v : Word) (s : State) : (regWrite r v s).pc = s.pc := rfl
@[simp] theorem regWrite_condpc (r : Nibble) (v : Word) (s : State) : (regWrite r v s).condpc = s.condpc := rfl
@[simp] theorem regWrite_run (r : Nibble) (v : Word) (s : State) : (regWrite r v s).run = s.run := rfl
@[simp] theorem regWrite_fault (r : Nibble) (v : Word) (s : State) : (regWrite r v s).fault = s.fault := rfl
@[simp] theorem regWrite_out (r : Nibble) (v : Word) (s : State) : (regWrite r v s).out = s.out := rfl
@[simp] theorem regWrite_nreg (r : Nibble) (v : Word) (s : State) : (regWrite r v s).nreg = s.nreg := by simp [State.nreg]
@[simp] theorem regWrite_codeLen (r : Nibble) (v : Word) (s : State) : (regWrite r v s).codeLen = s.codeLen := rfl

@[simp] theorem setPc_regs (t : Nat) (s : State) : (setPc t s).regs = s.regs := rfl
@[simp] theorem setPc_code (t : Nat) (s : State) : (setPc t s).code = s.code := rfl
@[simp] theorem setPc_pc (t : Nat) (s : State) : (setPc t s).pc = t := rfl
@[simp] theorem setPc_condpc (t : Nat) (s : State) : (setPc t s).condpc = s.condpc := rfl
@[simp] theorem setPc_run (t : Nat) (s : State) : (setPc t s).run = s.run := rfl
@[simp] theorem setPc_fault (t : Nat) (s : State) : (setPc t s).fault = s.fault := rfl
@[simp] theorem setPc_out (t : Nat) (s : State) : (setPc t s).out = s.out := rfl
@[simp] theorem setPc_nreg (t : Nat) (s : State) : (setPc t s).nreg = s.nreg := rfl
@[simp] theorem setPc_codeLen (t : Nat) (s : State) : (setPc t s).codeLen = s.codeLen := rfl

@[simp] theorem advance_regs (n : Nat) (s : State) : (advance n s).regs = s.regs := rfl
@[simp] theorem advance_code (n : Nat) (s : State) : (advance n s).code = s.code := rfl
@[simp] theorem advance_pc (n : Nat) (s : State) : (advance n s).pc = s.pc + n := rfl
@[simp] theorem advance_condpc (n : Nat) (s : State) : (advance n s).condpc = s.condpc := rfl
@[simp] theorem advance_run (n : Nat) (s : State) : (advance n s).run = s.run := rfl
@[simp] theorem advance_fault (n : Nat) (s : State) : (advance n s).fault = s.fault := rfl
@[simp] theorem advance_out (n : Nat) (s : State) : (advance n s).out = s.out := rfl
@[simp] theorem advance_nreg (n : Nat) (s : State) : (advance n s).nreg = s.nreg := rfl
@[simp] theorem advance_codeLen (n : Nat) (s : State) : (advance n s).codeLen = s.codeLen := rfl

@[simp] theorem setCondpc_regs (t : Nat) (s : State) : (setCondpc t s).regs = s.regs := rfl
@[simp] theorem setCondpc_code (t : Nat) (s : State) : (setCondpc t s).code = s.code := rfl
@[simp] theorem setCondpc_pc (t : Nat) (s : State) : (setCondpc t s).pc = s.pc := rfl
@[simp] theorem setCondpc_condpc (t : Nat) (s : State) : (setCondpc t s).condpc = t := rfl
@[simp] theorem setCondpc_run (t : Nat) (s : State) : (setCondpc t s).run = s.run := rfl
@[simp] theorem setCondpc_fault (t : Nat) (s : State) : (setCondpc t s).fault = s.fault := rfl
@[simp] theorem setCondpc_out (t : Nat) (s : State) : (setCondpc t s).out = s.out := rfl
@[simp] theorem setCondpc_nreg (t : Nat) (s : State) : (setCondpc t s).nreg = s.nreg := rfl
@[simp] theorem setCondpc_codeLen (t : Nat) (s : State) : (setCondpc t s).codeLen = s.codeLen := rfl

@[simp] theorem emit_regs (v : Word) (s : State) : (emit v s).regs = s.regs := rfl
@[simp] theorem emit_code (v : Word) (s : State) : (emit v s).code = s.code := rfl
@[simp] theorem emit_pc (v : Word) (s : State) : (emit v s).pc = s.pc := rfl
@[simp] theorem emit_condpc (v : Word) (s : State) : (emit v s).condpc = s.condpc := rfl
@[simp] theorem emit_run (v : Word) (s : State) : (emit v s).run = s.run := rfl
@[simp] theorem emit_fault (v : Word) (s : State) : (emit v s).fault = s.fault := rfl
@[simp] theorem emit_out (v : Word) (s : State) : (emit v s).out = s.out ++ [v] := rfl
@[simp] theorem emit_nreg (v : Word) (s : State) : (emit v s).nreg = s.nreg := rfl
@[simp] theorem emit_codeLen (v : Word) (s : State) : (emit v s).codeLen = s.codeLen := rfl

@[simp] theorem haltEngine_regs (s : State) : (haltEngine s).regs = s.regs := rfl
@[simp] theorem haltEngine_code (s : State) : (haltEngine s).code = s.code := rfl
@[simp] theorem haltEngine_pc (s : State) : (haltEngine s).pc = s.pc := rfl
@[simp] theorem haltEngine_condpc (s : State) : (haltEngine s).condpc = s.condpc := rfl
@[simp] theorem haltEngine_run (s : State) : (haltEngine s).run = .halted := rfl
@[simp] theorem haltEngine_fault (s : State) : (haltEngine s).fault = s.fault := rfl
@[simp] theorem haltEngine_out (s : State) : (haltEngine s).out = s.out := rfl
@[simp] theorem haltEngine_nreg (s : State) : (haltEngine s).nreg = s.nreg := rfl
@[simp] theorem haltEngine_codeLen (s : State) : (haltEngine s).codeLen = s.codeLen := rfl

@[simp] theorem raiseFault_regs (k : FaultKind) (o : Option Nibble) (s : State) : (raiseFault k o s).regs = s.regs := rfl
@[simp] theorem raiseFault_code (k : FaultKind) (o : Option Nibble) (s : State) : (raiseFault k o s).code = s.code := rfl
@[simp] theorem raiseFault_pc (k : FaultKind) (o : Option Nibble) (s : State) : (raiseFault k o s).pc = s.pc := rfl
@[simp] theorem raiseFault_condpc (k : FaultKind) (o : Option Nibble) (s : State) : (raiseFault k o s).condpc = s.condpc := rfl
@[simp] theorem raiseFault_run (k : FaultKind) (o : Option Nibble) (s : State) : (raiseFault k o s).run = .faulted := rfl
@[simp] theorem raiseFault_fault (k : FaultKind) (o : Option Nibble) (s : State) : (raiseFault k o s).fault = some ⟨k, s.pc, o.getD 0⟩ := rfl
@[simp] theorem raiseFault_out (k : FaultKind) (o : Option Nibble) (s : State) : (raiseFault k o s).out = s.out := rfl
@[simp] theorem raiseFault_nreg (k : FaultKind) (o : Option Nibble) (s : State) : (raiseFault k o s).nreg = s.nreg := rfl
@[simp] theorem raiseFault_codeLen (k : FaultKind) (o : Option Nibble) (s : State) : (raiseFault k o s).codeLen = s.codeLen := rfl

@[simp] theorem launch_regs (n : Nat) (m : Memory) (c : Nat) : (State.launch n m c).regs = List.replicate n 0 := rfl
@[simp] theorem launch_code (n : Nat) (m : Memory) (c : Nat) : (State.launch n m c).code = m := rfl
@[simp] theorem launch_pc (n : Nat) (m : Memory) (c : Nat) : (State.launch n m c).pc = 0 := rfl
@[simp] theorem launch_condpc (n : Nat) (m : Memory) (c : Nat) : (State.launch n m c).condpc = c := rfl
@[simp] theorem launch_run (n : Nat) (m : Memory) (c : Nat) : (State.launch n m c).run = .running := rfl
@[simp] theorem launch_fault (n : Nat) (m : Memory) (c : Nat) : (State.launch n m c).fault = none := rfl
@[simp] theorem launch_out (n : Nat) (m : Memory) (c : Nat) : (State.launch n m c).out = [] := rfl
@[simp] theorem launch_nreg (n : Nat) (m : Memory) (c : Nat) : (State.launch n m c).nreg = n := by simp [State.nreg]
@[simp] theorem launch_codeLen (n : Nat) (m : Memory) (c : Nat) : (State.launch n m c).codeLen = m.length := rfl

@[simp] theorem resetState_regs (c : Nat) (s : State) : (resetState c s).regs = List.replicate s.nreg 0 := rfl
@[simp] theorem resetState_code (c : Nat) (s : State) : (resetState c s).code = s.code := rfl
@[simp] theorem resetState_pc (c : Nat) (s : State) : (resetState c s).pc = 0 := rfl
@[simp] theorem resetState_condpc (c : Nat) (s : State) : (resetState c s).condpc = c := rfl
@[simp] theorem resetState_run (c : Nat) (s : State) : (resetState c s).run = .running := rfl
@[simp] theorem resetState_fault (c : Nat) (s : State) : (resetState c s).fault = none := rfl
@[simp] theorem resetState_out (c : Nat) (s : State) : (resetState c s).out = [] := rfl
@[simp] theorem resetState_nreg (c : Nat) (s : State) : (resetState c s).nreg = s.nreg := by simp [State.nreg]

end Sys2Proof.Machine
end

