-- ==== Sys2Proof/Laws/Ops.lean ====
section
/-! SUPPORT. One lemma per shared operation over registers, code memory and outputs that says what it can do. -/

namespace Sys2Proof.Machine

/-- A register reads exactly when its field is below NREG (R16). -/
theorem regRead_eq_none_iff (r : Nibble) (s : State) : regRead r s = none ↔ s.nreg ≤ r.toNat := by
  simp [regRead, State.nreg]

theorem regRead_isSome_iff (r : Nibble) (s : State) : (regRead r s).isSome ↔ r.toNat < s.nreg := by
  simp [regRead, State.nreg]

theorem exists_regRead {r : Nibble} {s : State} (h : r.toNat < s.nreg) : ∃ v, regRead r s = some v :=
  Option.isSome_iff_exists.mp ((regRead_isSome_iff r s).mpr h)

theorem regRead_lt {r : Nibble} {s : State} {v : Word} (h : regRead r s = some v) : r.toNat < s.nreg :=
  (regRead_isSome_iff r s).mp (by simp [h])

/-- Read after write, same register. -/
theorem regRead_regWrite_self {r : Nibble} {s : State} (v : Word) (h : r.toNat < s.nreg) :
    regRead r (regWrite r v s) = some v := by
  have h' : r.toNat < s.regs.length := h
  simp [regRead, h']

/-- A write leaves every other register alone. -/
theorem regRead_regWrite_ne {r q : Nibble} (v : Word) (s : State) (h : q ≠ r) :
    regRead q (regWrite r v s) = regRead q s := by
  have h' : r.toNat ≠ q.toNat := fun e => h (BitVec.eq_of_toNat_eq e.symm)
  simp [regRead, List.getElem?_set_ne h']

/-- Writing a register its own value changes nothing. -/
theorem regWrite_same {r : Nibble} {s : State} {v : Word} (h : regRead r s = some v) : regWrite r v s = s := by
  have hlt : r.toNat < s.regs.length := regRead_lt h
  have hv : s.regs[r.toNat] = v := by simpa [regRead, hlt] using h
  simp [regWrite, ← hv]

/-- A slot reads exactly when its index is below CODE_LEN (R40). -/
theorem memRead_eq_none_iff (a : Nat) (s : State) : memRead a s = none ↔ s.codeLen ≤ a := by
  simp [memRead, State.codeLen]

theorem memRead_lt {a : Nat} {s : State} {w : Word} (h : memRead a s = some w) : a < s.codeLen := by
  by_contra hc
  simp [(memRead_eq_none_iff a s).mpr (by omega)] at h

theorem exists_memRead {a : Nat} {s : State} (h : a < s.codeLen) : ∃ w, memRead a s = some w := by
  have h' : a < s.code.length := h
  exact ⟨s.code[a], by simp [memRead, h']⟩

/-- A read depends on code memory alone. -/
theorem memRead_congr {s t : State} (h : t.code = s.code) (a : Nat) : memRead a t = memRead a s := by
  simp [memRead, h]

/-- The register check passes: go on with the value. -/
theorem withReg_of_some {r : Nibble} {s : State} {v : Word} (h : regRead r s = some v) (k : Word → State) :
    withReg r s k = k v := by
  simp [withReg, h]

/-- The register check fails: RegisterOutOfRange and nothing else. -/
theorem withReg_of_none {r : Nibble} {s : State} (h : s.nreg ≤ r.toNat) (k : Word → State) :
    withReg r s k = raiseFault .registerOutOfRange none s := by
  simp [withReg, (regRead_eq_none_iff r s).mpr h]

/-- Everything the register check can do. -/
theorem withReg_cases (r : Nibble) (s : State) (k : Word → State) :
    (∃ v, regRead r s = some v ∧ withReg r s k = k v) ∨
      (s.nreg ≤ r.toNat ∧ withReg r s k = raiseFault .registerOutOfRange none s) := by
  cases h : regRead r s with
  | some v => exact .inl ⟨v, rfl, withReg_of_some h k⟩
  | none =>
    have hn := (regRead_eq_none_iff r s).mp h
    exact .inr ⟨hn, withReg_of_none hn k⟩

/-- The value a nibble has as a 32-bit word. -/
theorem zextW_toNat (n : Nibble) : (zextW n).toNat = n.toNat := by
  have := n.isLt
  simp only [zextW, BitVec.toNat_setWidth]
  omega

theorem imm4_toNat (n : Nibble) : (imm4 n).toNat = n.toNat := zextW_toNat n

/-- The nibble is never negative: 15 is +15 (R59, C3). -/
theorem signedW_imm4 (n : Nibble) : signedW (imm4 n) = n.toNat := by
  have := n.isLt
  simp only [signedW, BitVec.toInt_eq_toNat_cond, imm4_toNat]
  split <;> omega

/-- The adder's result as an integer: the exact sum, narrowed to 32 bits. -/
theorem signedW_adder (a : Word) (n : Nibble) : signedW (adder a n) = (signedW a + n.toNat).bmod (2 ^ 32) := by
  simp [signedW, adder, bitsW, zextW_toNat, BitVec.toInt_ofInt]

/-- The comparator says that the patterns are equal. -/
theorem comparator_iff (a b : Word) : comparator a b = true ↔ a = b := by
  simp [comparator]

end Sys2Proof.Machine
end

