-- ==== Sys2Proof/Laws/Memory.lean ====
section
/-! SUPPORT. Code memory: its well-formedness is kept by every operation that can change it (the load), and where a placed
instruction reads. -/

namespace Sys2Proof.Machine

theorem reset_memory_wf (cap : Nat) : Memory.wf cap State.reset.code = true := by
  simp [Memory.wf, State.reset]

/-- An image the port accepts is a well-formed code memory (R38). -/
theorem imageProblem_none_wf {cap : Nat} {image : List Nat} (h : imageProblem cap image = none) :
    Memory.wf cap (image.map (BitVec.ofNat 32)) = true ∧ ∀ w ∈ image, w < 2 ^ 32 := by
  unfold imageProblem at h
  split at h
  · simp at h
  · rename_i hl
    split at h
    · simp at h
    · rename_i ha
      refine ⟨by simp [Memory.wf]; omega, fun w hw => ?_⟩
      by_contra hc
      exact ha (List.any_eq_true.mpr ⟨w, hw, by simpa using Nat.not_lt.mp hc⟩)

/-- Every load keeps code memory well formed (R38). -/
theorem load_keeps_wf (image : List Nat) (b : Block) (h : Memory.wf b.codeCap b.state.code = true) :
    Memory.wf (b.load image).1.codeCap (b.load image).1.state.code = true := by
  unfold Block.load
  split
  · exact h
  · split
    · exact h
    · exact (imageProblem_none_wf ‹_›).1

/-- The first placed word is at the pc. -/
theorem placeWords_at (pc : Nat) (ws : Word × Word) (m : Memory) : (placeWords pc ws m)[pc]? = some ws.1 := by
  have hl : (m.take pc ++ List.replicate (pc - m.length) (0 : Word)).length = pc := by
    simp only [List.length_append, List.length_take, List.length_replicate]
    omega
  unfold placeWords
  rw [List.append_assoc, List.getElem?_append_right (by omega), hl]
  simp

/-- The second placed word is in the slot after it. -/
theorem placeWords_next (pc : Nat) (ws : Word × Word) (m : Memory) : (placeWords pc ws m)[pc + 1]? = some ws.2 := by
  have hl : (m.take pc ++ List.replicate (pc - m.length) (0 : Word)).length = pc := by
    simp only [List.length_append, List.length_take, List.length_replicate]
    omega
  unfold placeWords
  rw [List.append_assoc, List.getElem?_append_right (by omega), hl]
  simp

end Sys2Proof.Machine
end

