-- ==== Sys2Proof/Laws/Step.lean ====
section
/-! SUPPORT. What the fetch, an instruction, a step and the run loop can do, said once. -/

namespace Sys2Proof.Machine

/-! ### The fetch -/

theorem fetch_outOfRange {s : State} (h : s.codeLen ≤ s.pc) : fetch s = .error (.addressOutOfRange, none) := by
  simp [fetch, (memRead_eq_none_iff s.pc s).mpr h]

theorem fetch_of_decode {s : State} {w : Word} {i : Instr} (hw : memRead s.pc s = some w)
    (hd : decode w (memRead (s.pc + 1) s) = .ok i) : fetch s = .ok i := by
  simp [fetch, hw, hd]

theorem fetch_of_reject {s : State} {w : Word} {e : Reject} (hw : memRead s.pc s = some w)
    (hd : decode w (memRead (s.pc + 1) s) = .error e) : fetch s = .error (rejectFault e) := by
  simp [fetch, hw, hd]

/-- A fetched instruction comes from the word at pc and, for a wide form, the word after it. -/
theorem fetch_ok {s : State} {i : Instr} (h : fetch s = .ok i) :
    ∃ w, memRead s.pc s = some w ∧ decode w (memRead (s.pc + 1) s) = .ok i := by
  cases hw : memRead s.pc s with
  | none => simp [fetch, hw] at h
  | some w =>
    refine ⟨w, rfl, ?_⟩
    cases hd : decode w (memRead (s.pc + 1) s) with
    | ok j => simpa [fetch, hw, hd] using h
    | error e => simp [fetch, hw, hd] at h

/-- The fetch fails in three ways, and says which (R72, R74, R75). -/
theorem fetch_error {s : State} {f : FaultKind × Option Nibble} (h : fetch s = .error f) :
    (s.codeLen ≤ s.pc ∧ f = (.addressOutOfRange, none)) ∨
    ∃ w, memRead s.pc s = some w ∧
      ((10 ≤ (decodeOpcode w).toNat ∧ f = (.invalidOpcode, some (decodeOpcode w))) ∨
       ((decodeOpcode w = 3 ∨ decodeOpcode w = 8) ∧ s.codeLen ≤ s.pc + 1 ∧ f = (.addressOutOfRange, none))) := by
  cases hw : memRead s.pc s with
  | none =>
    refine .inl ⟨(memRead_eq_none_iff _ _).mp hw, ?_⟩
    simpa [fetch, hw] using h.symm
  | some w =>
    refine .inr ⟨w, rfl, ?_⟩
    have hn : memRead (s.pc + 1) s = none → s.codeLen ≤ s.pc + 1 := (memRead_eq_none_iff _ _).mp
    rcases decode_cases w (memRead (s.pc + 1) s) with
      ⟨-, e⟩ | ⟨-, e⟩ | ⟨-, e⟩ | ⟨o, ⟨n, e⟩ | ⟨v, -, e⟩⟩ | ⟨-, e⟩ | ⟨-, e⟩ | ⟨-, e⟩ | ⟨-, e⟩ | ⟨o, ⟨n, e⟩ | ⟨v, -, e⟩⟩ | ⟨-, e⟩ |
      ⟨o, e⟩
    all_goals simp only [fetch, hw, e, rejectFault] at h
    all_goals injection h
    · exact .inr ⟨.inl o, hn n, Eq.symm ‹_ = f›⟩
    · exact .inr ⟨.inr o, hn n, Eq.symm ‹_ = f›⟩
    · exact .inl ⟨o, Eq.symm ‹_ = f›⟩

/-- The fetch looks at code memory and pc alone. -/
theorem fetch_congr {s t : State} (hc : t.code = s.code) (hp : t.pc = s.pc) : fetch t = fetch s := by
  simp [fetch, memRead, hc, hp]

/-! ### The instructions -/

theorem exec_halt (s : State) : exec .halt s = .next (haltEngine s) := rfl

theorem exec_add {s : State} {rA : Nibble} {a : Word} (n : Nibble) (h : regRead rA s = some a) :
    exec (.add rA n) s = .next (advance 1 (regWrite rA (adder a n) s)) := by
  simp [exec, execAdd, withReg_of_some h]

theorem exec_load {s : State} {rA : Nibble} {a : Word} (n : Nibble) (h : regRead rA s = some a) :
    exec (.load rA n) s = .next (advance 1 (regWrite rA (imm4 n) s)) := by
  simp [exec, execLoad, withReg_of_some h]

theorem exec_loadw {s : State} {rA : Nibble} {a : Word} (v : Word) (h : regRead rA s = some a) :
    exec (.loadw rA v) s = .next (advance 2 (regWrite rA v s)) := by
  simp [exec, execLoadw, withReg_of_some h, wideValue]

theorem exec_copy {s : State} {rA rB : Nibble} {a b : Word} (h : regRead rA s = some a) (h' : regRead rB s = some b) :
    exec (.copy rA rB) s = .next (advance 1 (regWrite rA b s)) := by
  simp [exec, execCopy, withReg_of_some h, withReg_of_some h']

theorem exec_cndpc (t : Nibble) (s : State) : exec (.cndpc t) s = .next (advance 1 (setCondpc t.toNat s)) := rfl

theorem exec_jmp (t : Nibble) (s : State) : exec (.jmp t) s = .next (setPc t.toNat s) := rfl

theorem exec_jmpeq {s : State} {rA : Nibble} {a : Word} (n : Nibble) (h : regRead rA s = some a) :
    exec (.jmpeq rA n) s = .next (if a = imm4 n then setPc s.condpc s else advance 1 s) := by
  simp [exec, execJmpeq, withReg_of_some h, comparator_iff]

theorem exec_jmpeqw {s : State} {rA : Nibble} {a : Word} (v : Word) (h : regRead rA s = some a) :
    exec (.jmpeqw rA v) s = .next (if a = v then setPc s.condpc s else advance 2 s) := by
  simp [exec, execJmpeqw, withReg_of_some h, comparator_iff]

theorem exec_print {s : State} {rA : Nibble} {a : Word} (h : regRead rA s = some a) :
    exec (.print rA) s = .next (advance 1 (emit a s)) := by
  simp [exec, execPrint, withReg_of_some h]

/-- A well-formed instruction finds each of its registers. -/
theorem wellFormed_iff (nreg : Nat) (i : Instr) : i.wellFormed nreg = true ↔ ∀ r ∈ i.regFields, r.toNat < nreg := by
  simp [Instr.wellFormed]

/-- An instruction with a register field out of range takes RegisterOutOfRange, whatever else it would do (R76). -/
theorem exec_illFormed {s : State} {i : Instr} (h : i.wellFormed s.nreg = false) :
    exec i s = .next (raiseFault .registerOutOfRange none s) := by
  cases i with
  | halt => simp [Instr.wellFormed, Instr.regFields] at h
  | cndpc t => simp [Instr.wellFormed, Instr.regFields] at h
  | jmp t => simp [Instr.wellFormed, Instr.regFields] at h
  | copy rA rB =>
    have h' : s.nreg ≤ rA.toNat ∨ s.nreg ≤ rB.toNat := by
      simp [Instr.wellFormed, Instr.regFields] at h
      omega
    cases ha : regRead rA s with
    | none => simp [exec, execCopy, withReg_of_none ((regRead_eq_none_iff rA s).mp ha)]
    | some a =>
      have hb : s.nreg ≤ rB.toNat := by
        have := regRead_lt ha
        omega
      simp [exec, execCopy, withReg_of_some ha, withReg_of_none hb]
  | _ =>
    have h' := h
    simp [Instr.wellFormed, Instr.regFields] at h'
    simp [exec, execAdd, execLoad, execLoadw, execJmpeq, execJmpeqw, execPrint, withReg_of_none h']

/-- Everything a well-formed instruction can do. -/
theorem exec_wellFormed {s : State} {i : Instr} (h : i.wellFormed s.nreg = true) :
    (i = .halt ∧ exec i s = .next (haltEngine s)) ∨
    (∃ rA n a, i = .add rA n ∧ regRead rA s = some a ∧ exec i s = .next (advance 1 (regWrite rA (adder a n) s))) ∨
    (∃ rA n a, i = .load rA n ∧ regRead rA s = some a ∧ exec i s = .next (advance 1 (regWrite rA (imm4 n) s))) ∨
    (∃ rA v a, i = .loadw rA v ∧ regRead rA s = some a ∧ exec i s = .next (advance 2 (regWrite rA v s))) ∨
    (∃ rA rB a b, i = .copy rA rB ∧ regRead rA s = some a ∧ regRead rB s = some b ∧
      exec i s = .next (advance 1 (regWrite rA b s))) ∨
    (∃ t, i = .cndpc t ∧ exec i s = .next (advance 1 (setCondpc t.toNat s))) ∨
    (∃ t, i = .jmp t ∧ exec i s = .next (setPc t.toNat s)) ∨
    (∃ rA n a, i = .jmpeq rA n ∧ regRead rA s = some a ∧
      exec i s = .next (if a = imm4 n then setPc s.condpc s else advance 1 s)) ∨
    (∃ rA v a, i = .jmpeqw rA v ∧ regRead rA s = some a ∧
      exec i s = .next (if a = v then setPc s.condpc s else advance 2 s)) ∨
    (∃ rA a, i = .print rA ∧ regRead rA s = some a ∧ exec i s = .next (advance 1 (emit a s))) := by
  have hr := (wellFormed_iff s.nreg i).mp h
  cases i with
  | halt => exact .inl ⟨rfl, rfl⟩
  | add rA n =>
    obtain ⟨a, ha⟩ := exists_regRead (hr rA (by simp [Instr.regFields]))
    exact .inr (.inl ⟨rA, n, a, rfl, ha, exec_add n ha⟩)
  | load rA n =>
    obtain ⟨a, ha⟩ := exists_regRead (hr rA (by simp [Instr.regFields]))
    exact .inr (.inr (.inl ⟨rA, n, a, rfl, ha, exec_load n ha⟩))
  | loadw rA v =>
    obtain ⟨a, ha⟩ := exists_regRead (hr rA (by simp [Instr.regFields]))
    exact .inr (.inr (.inr (.inl ⟨rA, v, a, rfl, ha, exec_loadw v ha⟩)))
  | copy rA rB =>
    obtain ⟨a, ha⟩ := exists_regRead (hr rA (by simp [Instr.regFields]))
    obtain ⟨b, hb⟩ := exists_regRead (hr rB (by simp [Instr.regFields]))
    exact .inr (.inr (.inr (.inr (.inl ⟨rA, rB, a, b, rfl, ha, hb, exec_copy ha hb⟩))))
  | cndpc t => exact .inr (.inr (.inr (.inr (.inr (.inl ⟨t, rfl, rfl⟩)))))
  | jmp t => exact .inr (.inr (.inr (.inr (.inr (.inr (.inl ⟨t, rfl, rfl⟩))))))
  | jmpeq rA n =>
    obtain ⟨a, ha⟩ := exists_regRead (hr rA (by simp [Instr.regFields]))
    exact .inr (.inr (.inr (.inr (.inr (.inr (.inr (.inl ⟨rA, n, a, rfl, ha, exec_jmpeq n ha⟩)))))))
  | jmpeqw rA v =>
    obtain ⟨a, ha⟩ := exists_regRead (hr rA (by simp [Instr.regFields]))
    exact .inr (.inr (.inr (.inr (.inr (.inr (.inr (.inr (.inl ⟨rA, v, a, rfl, ha, exec_jmpeqw v ha⟩))))))))
  | print rA =>
    obtain ⟨a, ha⟩ := exists_regRead (hr rA (by simp [Instr.regFields]))
    exact .inr (.inr (.inr (.inr (.inr (.inr (.inr (.inr (.inr ⟨rA, a, rfl, ha, exec_print ha⟩))))))))

/-- Every instruction has a next state in every state. -/
theorem exec_exists_next (i : Instr) (s : State) : ∃ t, exec i s = .next t := by
  cases hw : i.wellFormed s.nreg with
  | false => exact ⟨_, exec_illFormed hw⟩
  | true =>
    rcases exec_wellFormed hw with ⟨_, h⟩ | ⟨_, _, _, _, _, h⟩ | ⟨_, _, _, _, _, h⟩ | ⟨_, _, _, _, _, h⟩ |
      ⟨_, _, _, _, _, _, _, h⟩ | ⟨_, _, h⟩ | ⟨_, _, h⟩ | ⟨_, _, _, _, _, h⟩ | ⟨_, _, _, _, _, h⟩ | ⟨_, _, _, _, h⟩
    all_goals exact ⟨_, h⟩

/-- What no well-formed instruction touches: the fault record, code memory, the register count, and run unless it is HALT. -/
theorem exec_wellFormed_keeps {i : Instr} {s t : State} (hw : i.wellFormed s.nreg = true) (h : exec i s = .next t) :
    t.fault = s.fault ∧ (t.run = s.run ∨ i = .halt ∧ t.run = .halted) ∧ t.code = s.code ∧ t.nreg = s.nreg := by
  have e := exec_wellFormed hw
  simp only [h] at e
  rcases e with ⟨rfl, h⟩ | ⟨_, _, _, rfl, _, h⟩ | ⟨_, _, _, rfl, _, h⟩ | ⟨_, _, _, rfl, _, h⟩ | ⟨_, _, _, _, rfl, _, _, h⟩ |
    ⟨_, rfl, h⟩ | ⟨_, rfl, h⟩ | ⟨_, _, _, rfl, _, h⟩ | ⟨_, _, _, rfl, _, h⟩ | ⟨_, _, rfl, _, h⟩
  all_goals
    injection h with h
    try split at h
    all_goals
      subst h
      simp

/-! ### The step -/

theorem step_halted {s : State} (h : s.run = .halted) : step s = .fault .halted := by simp [step, h]

theorem step_faulted {s : State} (h : s.run = .faulted) : step s = .fault .faulted := by simp [step, h]

theorem step_of_fetch {s : State} {i : Instr} (hr : s.run = .running) (h : fetch s = .ok i) : step s = exec i s := by
  simp [step, hr, h]

theorem step_of_fetchFault {s : State} {f : FaultKind × Option Nibble} (hr : s.run = .running) (h : fetch s = .error f) :
    step s = .next (raiseFault f.1 f.2 s) := by
  simp [step, hr, h]

/-- Everything a step with a next state can do: a fetch fault, a register fault, or a well-formed instruction. -/
theorem step_next {s t : State} (h : step s = .next t) :
    s.run = .running ∧
    ((∃ f, fetch s = .error f ∧ t = raiseFault f.1 f.2 s) ∨
     (∃ i, fetch s = .ok i ∧ i.wellFormed s.nreg = false ∧ t = raiseFault .registerOutOfRange none s) ∨
     (∃ i, fetch s = .ok i ∧ i.wellFormed s.nreg = true ∧ exec i s = .next t)) := by
  cases hr : s.run with
  | halted => simp [step_halted hr] at h
  | faulted => simp [step_faulted hr] at h
  | running =>
    refine ⟨rfl, ?_⟩
    cases hf : fetch s with
    | error f =>
      rw [step_of_fetchFault hr hf] at h
      exact .inl ⟨f, rfl, by simpa using h.symm⟩
    | ok i =>
      rw [step_of_fetch hr hf] at h
      cases hw : i.wellFormed s.nreg with
      | false =>
        rw [exec_illFormed hw] at h
        exact .inr (.inl ⟨i, rfl, hw, by simpa using h.symm⟩)
      | true => exact .inr (.inr ⟨i, rfl, hw, h⟩)

theorem step_exists_next {s : State} (hr : s.run = .running) : ∃ t, step s = .next t := by
  cases hf : fetch s with
  | error f => exact ⟨_, step_of_fetchFault hr hf⟩
  | ok i =>
    rw [step_of_fetch hr hf]
    exact exec_exists_next i s

/-- A step changes neither code memory nor the register count. -/
theorem step_keeps_sizes {s t : State} (h : step s = .next t) : t.code = s.code ∧ t.nreg = s.nreg := by
  obtain ⟨-, ⟨f, -, rfl⟩ | ⟨i, -, -, rfl⟩ | ⟨i, -, hw, e⟩⟩ := step_next h
  · exact ⟨rfl, rfl⟩
  · exact ⟨rfl, rfl⟩
  · exact ⟨(exec_wellFormed_keeps hw e).2.2.1, (exec_wellFormed_keeps hw e).2.2.2⟩

/-! ### The run loop -/

@[simp] theorem runLoop_zero (s : State) : runLoop 0 s = s := rfl

theorem runLoop_succ_next {s t : State} (b : Nat) (h : step s = .next t) : runLoop (b + 1) s = runLoop b t := by
  simp [runLoop, h]

theorem runLoop_stopped {s : State} (b : Nat) (h : s.run ≠ .running) : runLoop b s = s := by
  cases b with
  | zero => rfl
  | succ b =>
    cases hr : s.run with
    | running => exact absurd hr h
    | halted => simp [runLoop, step_halted hr]
    | faulted => simp [runLoop, step_faulted hr]

/-- What holds at the start and is kept by every step holds after any budget. -/
theorem runLoop_induction {P : State → Prop} (hs : ∀ s t, P s → step s = .next t → P t) (b : Nat) {s : State} (h : P s) :
    P (runLoop b s) := by
  induction b generalizing s with
  | zero => exact h
  | succ b ih =>
    cases e : step s with
    | next t =>
      rw [runLoop_succ_next b e]
      exact ih (hs s t h e)
    | fault f => simpa [runLoop, e] using h
    | refused r => simpa [runLoop, e] using h

end Sys2Proof.Machine
end

