-- ==== Sys2Proof/Laws/HostPort.lean ====
section
/-! SUPPORT. The host's side: what each request and each move of the run loop can do, said once. -/

namespace Sys2Proof.Machine

/-! ### Fields after an update of the block -/

@[simp] theorem reset_state (c : Nat) (b : Block) : (b.reset c).state = resetState c b.state := rfl
@[simp] theorem reset_codeCap (c : Nat) (b : Block) : (b.reset c).codeCap = b.codeCap := rfl
@[simp] theorem reset_loop (c : Nat) (b : Block) : (b.reset c).loop = .idle := rfl
@[simp] theorem loopReturn_state (b : Block) : b.loopReturn.1.state = b.state := rfl
@[simp] theorem loopReturn_codeCap (b : Block) : b.loopReturn.1.codeCap = b.codeCap := rfl
@[simp] theorem loopReturn_phase (b : Block) : b.loopReturn.1.phase = b.phase := rfl
@[simp] theorem loopReturn_loop (b : Block) : b.loopReturn.1.loop = .idle := rfl
@[simp] theorem request_load (image : List Nat) (b : Block) :
    b.request (.load image) = ((b.load image).1, .ofRefusal (b.load image).2) := rfl
@[simp] theorem request_reset (c : Nat) (b : Block) : b.request (.reset c) = (b.reset c, .accepted) := rfl
@[simp] theorem request_readStatus (b : Block) : b.request .readStatus = (b, .status (statusWord b.state)) := rfl

/-! ### Load and run requests -/

/-- Everything a load can do: the port is closed, the image is refused, or the image becomes the code memory. -/
theorem load_cases (image : List Nat) (b : Block) :
    ((b.phase = .started ∨ b.loop ≠ .idle) ∧ b.load image = (b, some .loadClosed)) ∨
    (b.phase ≠ .started ∧ b.loop = .idle ∧
      ((∃ r, imageProblem b.codeCap image = some r ∧ b.load image = ({ b with phase := .awaitingImage }, some r)) ∨
       (imageProblem b.codeCap image = none ∧
        b.load image = ({ b with state := { b.state with code := image.map (BitVec.ofNat 32) }, phase := .ready }, none)))) := by
  unfold Block.load
  by_cases h : b.phase = .started ∨ b.loop ≠ .idle
  · exact .inl ⟨h, if_pos h⟩
  · rw [if_neg h]
    obtain ⟨hp, hl⟩ := not_or.mp h
    refine .inr ⟨hp, by simpa using hl, ?_⟩
    cases hi : imageProblem b.codeCap image with
    | some r => exact .inl ⟨r, rfl, rfl⟩
    | none => exact .inr ⟨rfl, rfl⟩

/-- A run request is accepted exactly when an image has been accepted and no loop is in progress. -/
theorem runRefusal_eq_none_iff (b : Block) : b.runRefusal = none ↔ b.phase ≠ .awaitingImage ∧ b.loop = .idle := by
  unfold Block.runRefusal
  split
  · simp [*]
  · split <;> simp_all

theorem request_run_accepted {b : Block} (budget : Option Nat) (h : b.runRefusal = none) :
    b.request (.run budget) = ({ b with loop := Loop.start budget }, .accepted) := by
  simp [Block.request, h]

theorem request_run_refused {b : Block} {r : HostRefusal} (budget : Option Nat) (h : b.runRefusal = some r) :
    b.request (.run budget) = (b, .refused r) := by
  simp [Block.request, h]

/-- A run request changes no more of the block than its loop. -/
theorem request_run_fields (budget : Option Nat) (b : Block) :
    (b.request (.run budget)).1.state = b.state ∧ (b.request (.run budget)).1.codeCap = b.codeCap ∧
    (b.request (.run budget)).1.phase = b.phase := by
  cases h : b.runRefusal with
  | none => rw [request_run_accepted budget h]; exact ⟨rfl, rfl, rfl⟩
  | some r => rw [request_run_refused budget h]; exact ⟨rfl, rfl, rfl⟩

/-! ### The moves of the loop -/

theorem loopStep_next {b : Block} {t : State} (rest : Loop) (h : step b.state = .next t) :
    b.loopStep rest = ({ b with state := t, phase := .started, loop := rest }, .stepped (outputsSince b.state t)) := by
  simp [Block.loopStep, h]

theorem loopStep_stopped {b : Block} (rest : Loop) (h : b.state.run ≠ .running) : b.loopStep rest = b.loopReturn := by
  cases hr : b.state.run with
  | running => exact absurd hr h
  | halted => simp [Block.loopStep, step_halted hr]
  | faulted => simp [Block.loopStep, step_faulted hr]

theorem tick_idle {b : Block} (h : b.loop = .idle) : b.tick = (b, .nothing) := by
  simp [Block.tick, h]

theorem tick_budget_spent {b : Block} (h : b.loop = .budgeted 0) : b.tick = b.loopReturn := by
  simp [Block.tick, h]

theorem tick_budgeted {b : Block} {left : Nat} (h : b.loop = .budgeted (left + 1)) : b.tick = b.loopStep (.budgeted left) := by
  simp [Block.tick, h]

theorem tick_unbudgeted {b : Block} (h : b.loop = .unbudgeted) : b.tick = b.loopStep .unbudgeted := by
  simp [Block.tick, h]

/-- Everything a move of the loop can do: nothing, one step, or the return to the host. -/
theorem tick_cases (b : Block) :
    (b.loop = .idle ∧ b.tick = (b, .nothing)) ∨
    (b.loop ≠ .idle ∧ ∃ (t : State) (rest : Loop), step b.state = .next t ∧
      b.tick = ({ b with state := t, phase := .started, loop := rest }, .stepped (outputsSince b.state t))) ∨
    (b.loop ≠ .idle ∧ b.tick = b.loopReturn) := by
  have key : ∀ rest, b.loop ≠ .idle → b.tick = b.loopStep rest →
      (∃ (t : State) (rest : Loop), step b.state = .next t ∧
        b.tick = ({ b with state := t, phase := .started, loop := rest }, .stepped (outputsSince b.state t))) ∨
      b.tick = b.loopReturn := by
    intro rest _ e
    by_cases hr : b.state.run = .running
    · obtain ⟨t, ht⟩ := step_exists_next hr
      exact .inl ⟨t, rest, ht, e.trans (loopStep_next rest ht)⟩
    · exact .inr (e.trans (loopStep_stopped rest hr))
  cases hl : b.loop with
  | idle => exact .inl ⟨rfl, tick_idle hl⟩
  | unbudgeted =>
    have h : b.loop ≠ .idle := by simp [hl]
    exact .inr ((key _ h (tick_unbudgeted hl)).imp (fun e => ⟨by simp, e⟩) (fun e => ⟨by simp, e⟩))
  | budgeted left =>
    cases left with
    | zero => exact .inr (.inr ⟨by simp, tick_budget_spent hl⟩)
    | succ left =>
      have h : b.loop ≠ .idle := by simp [hl]
      exact .inr ((key _ h (tick_budgeted hl)).imp (fun e => ⟨by simp, e⟩) (fun e => ⟨by simp, e⟩))

@[simp] theorem ticks_zero (b : Block) : Block.ticks 0 b = b := rfl
@[simp] theorem ticks_succ (n : Nat) (b : Block) : Block.ticks (n + 1) b = Block.ticks n b.tick.1 := rfl
@[simp] theorem received_zero (b : Block) : Block.received 0 b = [] := rfl
@[simp] theorem received_succ (n : Nat) (b : Block) : Block.received (n + 1) b = b.tick.2.printed ++ Block.received n b.tick.1 := rfl

/-- A move of the loop changes neither code memory nor the sizes. -/
theorem tick_keeps_sizes (b : Block) :
    b.tick.1.state.code = b.state.code ∧ b.tick.1.state.nreg = b.state.nreg ∧ b.tick.1.codeCap = b.codeCap := by
  rcases tick_cases b with ⟨-, e⟩ | ⟨-, t, rest, ht, e⟩ | ⟨-, e⟩
  · rw [e]; exact ⟨rfl, rfl, rfl⟩
  · rw [e]; exact ⟨(step_keeps_sizes ht).1, (step_keeps_sizes ht).2, rfl⟩
  · rw [e]; exact ⟨rfl, rfl, rfl⟩

/-! ### How many steps a budget gives -/

theorem stepsTaken_succ_next {s t : State} (n : Nat) (h : step s = .next t) : stepsTaken (n + 1) s = stepsTaken n t + 1 := by
  simp [stepsTaken, h]

theorem stepsTaken_stopped {s : State} (n : Nat) (h : s.run ≠ .running) : stepsTaken n s = 0 := by
  cases n with
  | zero => rfl
  | succ n =>
    cases hr : s.run with
    | running => exact absurd hr h
    | halted => simp [stepsTaken, step_halted hr]
    | faulted => simp [stepsTaken, step_faulted hr]

end Sys2Proof.Machine
end

