-- ==== Sys2Proof/Laws/PerInstr.lean ====
section
/-! SUPPORT. The per-instruction family EncodeShape: what the canonical words of an instruction look like (spec/30_encoding.md R51,
R52, R64). -/

namespace Sys2Proof.Laws.EncodeShape

/-- As many words as the instruction is long, the first with bits 31..12 zero. -/
def Statement (i : Instr) : Prop :=
  (encode i).length = i.words ∧ ∃ w, (encode i).head? = some w ∧ w.toNat < 2 ^ 12

theorem fields_lt (op a1 a2 : Nibble) : (encodeFields op a1 a2).toNat < 2 ^ 12 := by
  have := op.isLt
  have := a1.isLt
  have := a2.isLt
  rw [encodeFields_toNat]
  omega

theorem halt : Statement .halt := ⟨rfl, _, rfl, fields_lt _ _ _⟩
theorem add (rA n : Nibble) : Statement (.add rA n) := ⟨rfl, _, rfl, fields_lt _ _ _⟩
theorem load (rA n : Nibble) : Statement (.load rA n) := ⟨rfl, _, rfl, fields_lt _ _ _⟩
theorem loadw (rA : Nibble) (v : Word) : Statement (.loadw rA v) := ⟨rfl, _, rfl, fields_lt _ _ _⟩
theorem copy (rA rB : Nibble) : Statement (.copy rA rB) := ⟨rfl, _, rfl, fields_lt _ _ _⟩
theorem cndpc (t : Nibble) : Statement (.cndpc t) := ⟨rfl, _, rfl, fields_lt _ _ _⟩
theorem jmp (t : Nibble) : Statement (.jmp t) := ⟨rfl, _, rfl, fields_lt _ _ _⟩
theorem jmpeq (rA n : Nibble) : Statement (.jmpeq rA n) := ⟨rfl, _, rfl, fields_lt _ _ _⟩
theorem jmpeqw (rA : Nibble) (v : Word) : Statement (.jmpeqw rA v) := ⟨rfl, _, rfl, fields_lt _ _ _⟩
theorem print (rA : Nibble) : Statement (.print rA) := ⟨rfl, _, rfl, fields_lt _ _ _⟩

end Sys2Proof.Laws.EncodeShape
end

