-- ==== Sys2Proof/Tests/Slice0.lean ====
section
/-! SUPPORT. The model's own tests: well-formedness smoke tests, words written out from spec/30_encoding.md R64, one-step tests from the tables of
spec/95_test_vectors.md, and for every statement with hypotheses a witness that meets them. -/

namespace Sys2Proof.Tests

open Sys2Proof.Machine

/-- A RUNNING state with these registers, code, pc and condpc, nothing printed. -/
def st (regs : List Word) (code : Memory) (pc condpc : Nat) : State :=
  { regs := regs, code := code, pc := pc, condpc := condpc, run := .running, fault := none, out := [] }

/-- A block of CODE_CAP 8 around a running state at pc 0. -/
def blk (regs : List Word) (code : Memory) (phase : LoadPhase) (loop : Loop) : Block :=
  { state := st regs code 0 0, codeCap := 8, phase := phase, loop := loop }

/-- The state after one step, if there is one. -/
def after (s : State) : Option State := nextState (step s)

/-- What a test looks at: registers as signed values, pc, condpc, run. -/
def view (o : Option State) : Option (List Int × Nat × Nat × RunState) :=
  o.map fun s => (s.regs.map signedW, s.pc, s.condpc, s.run)

/-! ### Well-formedness: an ill-formed term for each check, refused -/

theorem test_wellFormed_a1 : Instr.wellFormed 4 (.add 4 0) = false ∧ Instr.wellFormed 4 (.add 3 0) = true := by decide
theorem test_wellFormed_a2 : Instr.wellFormed 4 (.copy 0 4) = false ∧ Instr.wellFormed 4 (.copy 0 3) = true := by decide
theorem test_wellFormed_wide : Instr.wellFormed 1 (.loadw 1 0) = false ∧ Instr.wellFormed 1 (.jmpeqw 1 0) = false := by decide
theorem test_wellFormed_noRegister : Instr.wellFormed 1 (.jmp 15) = true ∧ Instr.wellFormed 1 (.cndpc 15) = true := by decide
theorem test_asm_refuses_nibble : assemble (.add 0 16) = none ∧ assemble (.jmp 16) = none ∧ assemble (.print 16) = none := by decide
theorem test_asm_refuses_wide : assemble (.loadw 0 (2 ^ 32)) = none ∧ assemble (.jmpeqw 0 (-(2 ^ 31) - 1)) = none := by decide
theorem test_asm_refuses_word : assemble (.word (2 ^ 32)) = none ∧ assemble (.word (2 ^ 32 - 1)) = some [0xFFFFFFFF#32] := by decide
theorem test_memory_wf : Memory.wf 1 [0#32, 0#32] = false ∧ Memory.wf 2 [0#32, 0#32] = true := by decide
theorem test_config_nregValid : Config.nregValid 0 = false ∧ Config.nregValid 17 = false ∧ Config.nregValid 16 = true := by decide

/-! ### Decoding: each constructor's word, bit by bit from R64 (op bits 11..8, a1 bits 7..4, a2 bits 3..0) -/

theorem test_decode_halt : decode 0b11111111111111111111000010100101#32 none = .ok .halt := by decide
theorem test_decode_add : decode 0b00000000000000000000000100101111#32 none = .ok (.add 2 15) := by decide
theorem test_decode_load : decode 0b00000000000000000000001000010101#32 none = .ok (.load 1 5) := by decide
theorem test_decode_loadw :
    decode 0b00000000000000000000001100101001#32 (some 0xFFFFFFFE#32) = .ok (.loadw 2 0xFFFFFFFE) := by decide
theorem test_decode_copy : decode 0b00000000000000000000010000110010#32 none = .ok (.copy 3 2) := by decide
theorem test_decode_cndpc : decode 0b00000000000000000000010101111111#32 none = .ok (.cndpc 7) := by decide
theorem test_decode_jmp : decode 0b00010010001101000101011001111000#32 none = .ok (.jmp 7) := by decide
theorem test_decode_jmpeq : decode 0b00000000000000000000011100010100#32 none = .ok (.jmpeq 1 4) := by decide
theorem test_decode_jmpeqw :
    decode 0b00000000000000000000100000000011#32 (some 0x000F4240#32) = .ok (.jmpeqw 0 1000000) := by decide
theorem test_decode_print : decode 0b00000000000000000000100100010000#32 none = .ok (.print 1) := by decide
theorem test_decode_undefined : decode 0xFFFFFA5C#32 none = .error (.invalidOpcode 10) := by decide
theorem test_decode_missing : decode 0x350#32 none = .error .missingImmediate ∧ decode 0x890#32 none = .error .missingImmediate := by
  decide
theorem test_decodeTableWord : decodeTableWord 32 0x3A0 = some (.loadw 10 0) ∧
    decodeTableWord 64 (0x5 * 2 ^ 32 + 0x810) = some (.jmpeqw 1 5) ∧ decodeTableWord 32 0xF00 = none := by decide

/-! ### The encoder unit (spec/95_test_vectors.md 2.1) -/

theorem test_encodeUnit : encodeUnit 1 0 1 = 0x101#32 ∧ encodeUnit 15 15 15 = 0xFFF#32 ∧ encodeUnit 17 18 19 = 0x123#32 := by decide
theorem test_encodeUnit_truncates : encodeUnit 16 0 0 = 0#32 ∧ encodeUnit 0 16 0 = 0#32 ∧ encodeUnit 0 0 16 = 0#32 ∧
    encodeUnit (-1) (-1) (-1) = 0xFFF#32 := by decide
theorem test_assemble : assemble (.copy 3 2) = some [0x432#32] ∧ assemble (.loadw 2 (-2)) = some [0x320#32, 0xFFFFFFFE#32] := by decide

/-! ### One step (spec/95_test_vectors.md 2.2 to 2.6) -/

theorem test_halt : view (after (st [1, 2] [0x0FF#32] 0 9)) = some ([1, 2], 0, 9, .halted) := by decide
theorem test_halt_last : step { st [1, 2] [0x0FF#32] 0 9 with run := .halted } = .fault .halted := rfl
theorem test_add_no_sign_extension : view (after (st [0, 0] [0x10F#32] 0 0)) = some ([15, 0], 1, 0, .running) := by decide
theorem test_add_wraps : view (after (st [0x7FFFFFFF#32] [0x101#32] 0 0)) = some ([-2147483648], 1, 0, .running) := by decide
theorem test_load_15 : view (after (st [7, 7, 7, 7] [0x23F#32] 0 0)) = some ([7, 7, 7, 15], 1, 0, .running) := by decide
theorem test_load_fault : (after (st [7, 7, 7, 7] [0x251#32] 0 0)).map State.fault = some (some ⟨.registerOutOfRange, 0, 0⟩) := by decide
theorem test_loadw_min : view (after (st [0] [0x300#32, 0x80000000#32] 0 0)) = some ([-2147483648], 2, 0, .running) := by decide
theorem test_loadw_last_slot :
    (after (st [1, 0, 0, 0] [0x201#32, 0x350#32] 1 0)).map State.fault = some (some ⟨.addressOutOfRange, 1, 0⟩) := by decide
theorem test_copy : view (after (st [9, 0] [0x410#32] 0 0)) = some ([9, 9], 1, 0, .running) := by decide
theorem test_copy_source_fault :
    (after (st [1, 2, 3, 4] [0x404#32, 0x000#32] 0 0)).map State.fault = some (some ⟨.registerOutOfRange, 0, 0⟩) := by decide
theorem test_cndpc_ignores_a2 : view (after (st [0] [0x5FF#32] 0 3)) = some ([0], 1, 15, .running) := by decide
theorem test_jmp : view (after (st [0] [0x690#32, 0#32] 0 3)) = some ([0], 9, 3, .running) := by decide
theorem test_jmp_target_fault : (after (st [0] [0x690#32, 0#32] 9 3)).map State.fault = some (some ⟨.addressOutOfRange, 9, 0⟩) := by decide
theorem test_jmpeq_taken : view (after (st [0, 4] [0x714#32] 0 7)) = some ([0, 4], 7, 7, .running) := by decide
theorem test_jmpeq_no_sign_extension : view (after (st [0, 0xFFFFFFFF#32] [0x71F#32] 0 7)) = some ([0, -1], 1, 7, .running) := by decide
theorem test_jmpeqw_taken :
    view (after (st [0, 0xFFFFFFFF#32] [0x810#32, 0xFFFFFFFF#32] 0 9)) = some ([0, -1], 9, 9, .running) := by decide
theorem test_jmpeqw_not_taken : view (after (st [999999] [0x800#32, 0x000F4240#32] 0 7)) = some ([999999], 2, 7, .running) := by decide
theorem test_print : (after (st [0, 0xFFFFFFFF#32] [0x910#32] 0 0)).map (fun s => (s.out.map signedW, s.pc)) = some ([-1], 1) := by decide
theorem test_print_fault : (after (st [0, 0, 0, 0] [0x940#32] 0 0)).map (fun s => (s.out, s.fault)) =
    some ([], some ⟨.registerOutOfRange, 0, 0⟩) := by decide
theorem test_undefined_before_register_check :
    (after (st [0] [0xAFF#32] 0 0)).map State.fault = some (some ⟨.invalidOpcode, 0, 10⟩) := by decide
theorem test_empty_image : (after (State.launch 4 [] 0)).map State.fault = some (some ⟨.addressOutOfRange, 0, 0⟩) := by decide

/-! ### The host's side -/

theorem test_status : statusWord { st [0] [0xA00#32] 0 0 with run := .faulted, fault := some ⟨.invalidOpcode, 3, 10⟩ } = ⟨2, 1, 3, 10⟩ := by
  decide
theorem test_render : renderValue 1000000 = ['1', '0', '0', '0', '0', '0', '0', '\n'] ∧ renderValue 0 = ['0', '\n'] ∧
    renderValue 0x80000000#32 = ['-', '2', '1', '4', '7', '4', '8', '3', '6', '4', '8', '\n'] := by decide
theorem test_load_refused : imageProblem 1 [0, 0] = some .imageTooLong ∧ imageProblem 2 [0, 2 ^ 32] = some .wordOutOfRange ∧
    imageProblem 2 [0, 2 ^ 32 - 1] = none := by decide
/-- PRINT, then a JMP to itself: the first two moves of the loop, and the move that returns from a budget of one step. -/
theorem test_loop_moves :
    (blk [7] [0x900#32, 0x610#32] .ready .unbudgeted).tick.2 = .stepped [7] ∧
    Block.received 2 (blk [7] [0x900#32, 0x610#32] .ready .unbudgeted) = [7] ∧
    (Block.ticks 3 (blk [7] [0x900#32, 0x610#32] .ready .unbudgeted)).loop = .unbudgeted ∧
    (Block.ticks 1 (blk [7] [0x900#32, 0x610#32] .ready (.budgeted 1))).tick.2 = .returned ⟨0, 0, 0, 0⟩ := by decide
theorem test_sext : sextN 15 = -1 ∧ sextN 7 = 7 := by decide

/-! ### Witnesses: for each statement with hypotheses, values that meet them, clause by clause -/

theorem witness_FirstStepFetchesIndexZero :
    decode 0x300#32 [0x5#32].head? = .ok (.loadw 0 5) ∧ decode 0x101#32 ([] : Memory).head? = .ok (.add 0 1) := by decide

theorem witness_HaltStopsTheEngine :
    0xFFFFF0FF#32 &&& 0xF00#32 = 0x000#32 ∧ (st [0] [0xFFFFF0FF#32] 0 0).run = .running ∧
    (st [0] [0xFFFFF0FF#32] 0 0).code[(st [0] [0xFFFFF0FF#32] 0 0).pc]? = some 0xFFFFF0FF#32 := by decide

theorem witness_PrintAppendsTheRegister :
    0xFFFFF9FF#32 &&& 0xF00#32 = 0x900#32 ∧ (st [1, 2] [] 0 0).regs[(1 : Nibble).toNat]? = some 2#32 ∧
    (st [1, 2] [] 0 0).regs.length ≤ (2 : Nibble).toNat := by decide

theorem witness_PrintAppendsTheRegister_next :
    exec (.print 1) (st [1, 2] [] 0 0) = .next { st [1, 2] [] 0 0 with out := [2], pc := 1 } := rfl

theorem witness_AddWrapsModuloTwoToThe32 :
    0xFFFFF1FF#32 &&& 0xF00#32 = 0x100#32 ∧ (st [1, 0x7FFFFFFF#32] [] 0 0).regs[(1 : Nibble).toNat]? = some 0x7FFFFFFF#32 ∧
    (st [1, 2] [] 0 0).regs.length ≤ (2 : Nibble).toNat := by decide

theorem witness_LoadWritesTheNibble :
    0xFFFFF2FF#32 &&& 0xF00#32 = 0x200#32 ∧ (1 : Nibble).toNat < (st [1, 2] [] 0 0).regs.length ∧
    (st [1, 2] [] 0 0).regs.length ≤ (2 : Nibble).toNat := by decide

theorem witness_LoadwWritesTheNextWord :
    0xFFFFF3FF#32 &&& 0xF00#32 = 0x300#32 ∧ (1 : Nibble).toNat < (st [1, 2] [] 0 0).regs.length ∧
    (st [1, 2] [] 0 0).regs.length ≤ (2 : Nibble).toNat ∧ (st [1] [0x3F0#32] 0 0).run = .running ∧
    (st [1] [0x3F0#32] 0 0).code[(st [1] [0x3F0#32] 0 0).pc]? = some 0x3F0#32 ∧ 0x3F0#32 &&& 0xF00#32 = 0x300#32 ∧
    (st [1] [0x3F0#32] 0 0).code.length ≤ (st [1] [0x3F0#32] 0 0).pc + 1 := by decide

theorem witness_CopyMovesOneRegister :
    0xFFFFF4FF#32 &&& 0xF00#32 = 0x400#32 ∧ (1 : Nibble).toNat < (st [1, 2] [] 0 0).regs.length ∧
    (st [1, 2] [] 0 0).regs[(0 : Nibble).toNat]? = some 1#32 ∧
    ((st [1, 2] [] 0 0).regs.length ≤ (2 : Nibble).toNat ∨ (st [1, 2] [] 0 0).regs.length ≤ (0 : Nibble).toNat) ∧
    ((st [1, 2] [] 0 0).regs.length ≤ (0 : Nibble).toNat ∨ (st [1, 2] [] 0 0).regs.length ≤ (2 : Nibble).toNat) := by decide

theorem witness_CndpcSetsTheBranchTarget : 0xFFFFF5FF#32 &&& 0xF00#32 = 0x500#32 := by decide

theorem witness_JmpSetsThePc :
    0xFFFFF6FF#32 &&& 0xF00#32 = 0x600#32 ∧ (st [0] [0x610#32] 0 0).run = .running ∧
    (st [0] [0x610#32] 0 0).code.length ≤ (1 : Nibble).toNat := by decide

theorem witness_JmpeqComparesWithTheNibble :
    0xFFFFF7FF#32 &&& 0xF00#32 = 0x700#32 ∧ (st [0xFFFFFFFF#32, 15] [] 2 2).regs[(1 : Nibble).toNat]? = some 15#32 ∧
    (15#32).toInt = (((15 : Nibble).toNat : Nat) : Int) ∧ (st [0xFFFFFFFF#32, 15] [] 2 2).condpc = (st [0xFFFFFFFF#32, 15] [] 2 2).pc ∧
    (st [0xFFFFFFFF#32, 15] [] 2 2).regs[(0 : Nibble).toNat]? = some 0xFFFFFFFF#32 ∧ (0xFFFFFFFF#32).toInt < 0 ∧
    (st [0] [0x700#32] 0 1).run = .running ∧ (st [0] [0x700#32] 0 1).code.length ≤ (st [0] [0x700#32] 0 1).condpc ∧
    (st [0] [0x700#32] 0 1).regs.length ≤ (1 : Nibble).toNat := by decide

theorem witness_JmpeqwComparesWithTheNextWord :
    0xFFFFF8FF#32 &&& 0xF00#32 = 0x800#32 ∧ (st [1, 2] [] 0 0).regs[(1 : Nibble).toNat]? = some 2#32 ∧
    (st [1, 2] [] 0 0).regs.length ≤ (2 : Nibble).toNat ∧ (st [1] [0x8F0#32] 0 0).run = .running ∧
    (st [1] [0x8F0#32] 0 0).code[(st [1] [0x8F0#32] 0 0).pc]? = some 0x8F0#32 ∧ 0x8F0#32 &&& 0xF00#32 = 0x800#32 ∧
    (st [1] [0x8F0#32] 0 0).code.length ≤ (st [1] [0x8F0#32] 0 0).pc + 1 := by decide

/-- One witness for each of the four instructions, the last with a register out of range. -/
theorem witness_RegisterWriterFrame :
    exec (.add 1 3) (st [1, 2] [] 0 0) = .next (st [1, 5] [] 1 0) ∧ exec (.load 1 3) (st [1, 2] [] 0 0) = .next (st [1, 3] [] 1 0) ∧
    exec (.loadw 1 9) (st [1, 2] [] 0 0) = .next (st [1, 9] [] 2 0) ∧ exec (.copy 1 0) (st [1, 2] [] 0 0) = .next (st [1, 1] [] 1 0) ∧
    exec (.copy 1 2) (st [1, 2] [] 0 0) =
      .next { st [1, 2] [] 0 0 with run := .faulted, fault := some ⟨.registerOutOfRange, 0, 0⟩ } :=
  ⟨rfl, rfl, rfl, rfl, rfl⟩

theorem witness_RegisterWriterFrame_forms :
    Instr.wellFormed (st [1, 2] [] 0 0).regs.length (.copy 1 0) = true ∧
    Instr.wellFormed (st [1, 2] [] 0 0).regs.length (.copy 1 2) = false := by decide

theorem witness_ControlTransferFrame :
    exec (.cndpc 9) (st [1, 2] [] 0 3) = .next (st [1, 2] [] 1 9) ∧ exec (.jmp 9) (st [1, 2] [] 0 3) = .next (st [1, 2] [] 9 3) ∧
    exec (.jmpeq 1 2) (st [1, 2] [] 0 3) = .next (st [1, 2] [] 3 3) ∧ exec (.jmpeqw 1 9) (st [1, 2] [] 0 3) = .next (st [1, 2] [] 2 3) ∧
    exec (.jmpeq 2 2) (st [1, 2] [] 0 3) =
      .next { st [1, 2] [] 0 3 with run := .faulted, fault := some ⟨.registerOutOfRange, 0, 0⟩ } :=
  ⟨rfl, rfl, rfl, rfl, rfl⟩

theorem witness_ControlTransferFrame_forms :
    Instr.wellFormed (st [1, 2] [] 0 3).regs.length (.jmpeq 1 2) = true ∧
    Instr.wellFormed (st [1, 2] [] 0 3).regs.length (.jmpeq 2 2) = false := by decide

theorem witness_SystemFrame :
    exec .halt (st [1, 2] [] 0 3) = .next { st [1, 2] [] 0 3 with run := .halted } ∧
    exec (.print 1) (st [1, 2] [] 0 3) = .next { st [1, 2] [] 1 3 with out := [2] } ∧
    exec (.print 2) (st [1, 2] [] 0 3) =
      .next { st [1, 2] [] 0 3 with run := .faulted, fault := some ⟨.registerOutOfRange, 0, 0⟩ } :=
  ⟨rfl, rfl, rfl⟩

theorem witness_StepRunsTheDecodedInstruction :
    (st [0] [0x300#32, 0x7#32] 0 0).run = .running ∧ (st [0] [0x300#32, 0x7#32] 0 0).code[0]? = some 0x300#32 ∧
    decode 0x300#32 (st [0] [0x300#32, 0x7#32] 0 0).code[0 + 1]? = .ok (.loadw 0 7) := by decide

theorem witness_StepIsEnabledExactlyWhileRunning :
    step (st [0] [0x630#32] 0 0) = .next (st [0] [0x630#32] 3 0) ∧
    ({ st [0] [] 0 0 with run := .halted } : State).run ≠ .running ∧ ({ st [0] [] 0 0 with run := .faulted } : State).run ≠ .running :=
  ⟨rfl, by decide, by decide⟩

theorem witness_PcOutOfRangeFaults :
    (st [0] [0x0#32] 1 0).run = .running ∧ (st [0] [0x0#32] 1 0).code.length ≤ (st [0] [0x0#32] 1 0).pc := by decide

theorem witness_UndefinedOpcodeFaults :
    (st [0] [0xAFF#32] 0 0).run = .running ∧ (st [0] [0xAFF#32] 0 0).code[(st [0] [0xAFF#32] 0 0).pc]? = some 0xAFF#32 ∧
    10 ≤ (0xAFF#32).toNat / 256 % 16 ∧ 10 ≤ (0xF00#32).toNat / 256 % 16 := by decide

theorem witness_RegisterFieldOutOfRangeFaults :
    (∃ r ∈ Instr.regFields (.copy 0 1), (st [0] [] 0 0).regs.length ≤ r.toNat) ∧
    (∀ r ∈ Instr.regFields (.copy 0 0), r.toNat < (st [0] [] 0 0).regs.length) := by decide

theorem witness_RegisterFieldOutOfRangeFaults_next : exec (.copy 0 0) (st [5] [] 0 0) = .next (st [5] [] 1 0) := rfl

/-- A step into each case of the chain: pc, opcode, wide immediate, a1, a2, and none. -/
theorem witness_FirstFailingCheckDecidesTheFault :
    (after (st [0] [] 0 0)).map State.fault = some (some ⟨.addressOutOfRange, 0, 0⟩) ∧
    (after (st [0] [0xA00#32] 0 0)).map State.fault = some (some ⟨.invalidOpcode, 0, 10⟩) ∧
    (after (st [0] [0x8F0#32] 0 0)).map State.fault = some (some ⟨.addressOutOfRange, 0, 0⟩) ∧
    (after (st [0] [0x110#32] 0 0)).map State.fault = some (some ⟨.registerOutOfRange, 0, 0⟩) ∧
    (after (st [0] [0x401#32] 0 0)).map State.fault = some (some ⟨.registerOutOfRange, 0, 0⟩) ∧
    (after (st [0] [0x400#32] 0 0)).map State.fault = some none := by decide

theorem witness_FaultsArePrecise :
    step (st [0] [0xA00#32] 0 0) = .next { st [0] [0xA00#32] 0 0 with run := .faulted, fault := some ⟨.invalidOpcode, 0, 10⟩ } := rfl

theorem witness_NextPcTable :
    Instr.wellFormed (st [1, 2] [] 5 3).regs.length (.jmpeqw 1 2) = true ∧
    exec (.jmpeqw 1 2) (st [1, 2] [] 5 3) = .next (st [1, 2] [] 3 3) :=
  ⟨by decide, rfl⟩

theorem witness_StepIsTheListing : (st [0] [0x101#32] 0 0).run = .running := rfl

theorem witness_CodeMemoryIsReadOnly :
    exec (.add 0 1) (st [1] [] 0 0) = .next (st [2] [] 1 0) ∧
    ({ state := st [1] [] 0 0, codeCap := 8, phase := .started, loop := .idle } : Block).phase = .started :=
  ⟨rfl, rfl⟩

theorem witness_CodeMemoryIsReadOnly_request : ∀ image, HostRequest.run (some 3) ≠ .load image := by
  intro image h
  cases h

theorem witness_RegisterCountIsFixed : step (st [1] [0x101#32] 0 0) = .next (st [2] [0x101#32] 1 0) := rfl

theorem witness_OnlyFourInstructionsWriteRegisters :
    step (st [1] [0x101#32] 0 0) = .next (st [2] [0x101#32] 1 0) ∧ (st [2] [0x101#32] 1 0).regs ≠ (st [1] [0x101#32] 0 0).regs :=
  ⟨rfl, by decide⟩

theorem witness_OnlyCndpcWritesCondpc :
    step (st [1] [0x5F0#32] 0 0) = .next (st [1] [0x5F0#32] 1 15) ∧ (st [1] [0x5F0#32] 1 15).condpc ≠ (st [1] [0x5F0#32] 0 0).condpc :=
  ⟨rfl, by decide⟩

theorem witness_OnlyPrintAppendsToTheOutput :
    step (st [1] [0x900#32] 0 0) = .next { st [1] [0x900#32] 1 0 with out := [1] } ∧
    ({ st [1] [0x900#32] 1 0 with out := [1] } : State).out ≠ (st [1] [0x900#32] 0 0).out :=
  ⟨rfl, by decide⟩

theorem witness_OnlyHaltAndFaultsEndARun :
    step (st [1] [0x000#32] 0 0) = .next { st [1] [0x000#32] 0 0 with run := .halted } ∧
    step (st [1] [0xF00#32] 0 0) = .next { st [1] [0xF00#32] 0 0 with run := .faulted, fault := some ⟨.invalidOpcode, 0, 15⟩ } ∧
    ({ st [1] [] 0 0 with run := .halted } : State).run ≠ .running :=
  ⟨rfl, rfl, by decide⟩

/-- States that meet the invariant: running, halted, and faulted in each way; the pc at its bound. -/
theorem witness_StepKeepsInv :
    State.Inv 40 (st [0] [0x101#32] 0 40) ∧ State.Inv 40 (st [0] [0x101#32] 40 40) ∧
    State.Inv 0 { st [0] [0x000#32] 0 0 with run := .halted } ∧
    State.Inv 0 { st [0] [0xF00#32] 0 0 with run := .faulted, fault := some ⟨.invalidOpcode, 0, 15⟩ } ∧
    State.Inv 0 { st [0] [0x800#32] 0 0 with run := .faulted, fault := some ⟨.addressOutOfRange, 0, 0⟩ } ∧
    State.Inv 0 { st [0] [0x110#32] 0 0 with run := .faulted, fault := some ⟨.registerOutOfRange, 0, 0⟩ } := by decide

theorem witness_StepKeepsInv_next : step (st [0] [0x101#32] 0 40) = .next (st [1] [0x101#32] 1 40) := rfl

theorem witness_InvHoldsAtReset : 1 ≤ 1 ∧ 1 ≤ 16 ∧ 1 ≤ 16 ∧ 16 ≤ 16 := by decide

theorem witness_LaunchCondpcMattersOnlyToAnEarlyJump :
    usesLaunchCondpc 2 (st [0] [0x500#32, 0x700#32] 0 9) = false ∧ usesLaunchCondpc 2 (st [0] [0x700#32] 0 9) = true := by decide

/-- The narrow and the wide jump after a CNDPC. -/
theorem witness_CndpcIsSeenByTheNextJump :
    decode 0x590#32 (st [4] [0x590#32, 0x704#32] 0 0).code[0 + 1]? = .ok (.cndpc 9) ∧
    (st [4] [0x590#32, 0x704#32] 0 0).code[0 + 1]? = some 0x704#32 ∧ (0x704#32).toNat / 256 % 16 = 7 ∧
    (st [4] [0x590#32, 0x704#32] 0 0).regs[(0x704#32).toNat / 16 % 16]?.map BitVec.toNat = some ((0x704#32).toNat % 16) ∧
    (st [4] [0x590#32, 0x800#32, 4] 0 0).code[0 + 1]? = some 0x800#32 ∧ (0x800#32).toNat / 256 % 16 = 8 ∧
    (st [4] [0x590#32, 0x800#32, 4] 0 0).code[0 + 2]? = some 4#32 ∧
    (st [4] [0x590#32, 0x800#32, 4] 0 0).regs[(0x800#32).toNat / 16 % 16]? = some 4#32 := by decide

theorem witness_JumpToItselfRunsForever :
    (st [4] [0#32, 0xFFFFF61F#32] 1 0).code[1]? = some 0xFFFFF61F#32 ∧ (0xFFFFF61F#32).toNat / 256 % 16 = 6 ∧
    (0xFFFFF61F#32).toNat / 16 % 16 = (st [4] [0#32, 0xFFFFF61F#32] 1 0).pc := by decide

theorem witness_BudgetedRunsResume :
    stepsTaken 2 (st [0] [0x000#32] 0 0) < 2 ∧ (runLoop 1 (st [0] [0x600#32] 0 0)).run = .running := by decide

theorem witness_RunsEndInOneState : RunEndsIn (st [0] [0x000#32] 0 0) { st [0] [0x000#32] 0 0 with run := .halted } :=
  ⟨1, rfl, by decide⟩

theorem witness_OpcodeAloneGivesTheLength :
    decode 0xFFFFF8F9#32 (some 0x1#32) = .ok (.jmpeqw 15 1) ∧ decode 0xFFFFF9F9#32 none = .ok (.print 15) := by decide

theorem witness_EncodeOfDecode :
    decode 0xFFFFF3F9#32 (some 0x80000000#32) = .ok (.loadw 15 0x80000000) ∧ decode 0xFFFFF1F9#32 none = .ok (.add 15 9) ∧
    decode 0xFFFFF9F9#32 none = .ok (.print 15) ∧ decode 0xFFFFF0F9#32 none = .ok .halt := by decide

theorem witness_IgnoredBitsDoNotMatter :
    0xFFFFF123#32 &&& 0xFFF#32 = 0x123#32 &&& 0xFFF#32 ∧ 0xFFFFF32F#32 &&& 0xFF0#32 = 0x320#32 &&& 0xFF0#32 ∧
    (0xFFFFF32F#32).toNat / 256 % 16 ∈ [3, 5, 6, 8, 9] ∧ 0xFFFFF0FF#32 &&& 0xF00#32 = 0x000#32 &&& 0xF00#32 ∧
    (0xFFFFF0FF#32).toNat / 256 % 16 = 0 := by decide

/-- Operands at the first value that does not fit. -/
theorem witness_AssemblerEmitsCanonicalWords :
    (16 ≤ 16 ∨ 16 ≤ 0) ∧ (16 ≤ 0 ∨ 16 ≤ 16) ∧ (16 ≤ 0 ∨ (-(2 ^ 31) - 1 : Int) < -(2 ^ 31) ∨ (2 ^ 32 : Int) ≤ -(2 ^ 31) - 1) ∧
    (16 ≤ 0 ∨ (2 ^ 32 : Int) < -(2 ^ 31) ∨ (2 ^ 32 : Int) ≤ 2 ^ 32) ∧ 2 ^ 32 ≤ 2 ^ 32 := by decide

theorem witness_PlacedWordRunsNext : decodeTableWord 32 0x300 = some (.loadw 0 0) := by decide

theorem witness_CodeReadsAreBounded :
    0 < (st [0] [0x101#32] 0 0).code.length ∧ step (st [0] [0x101#32] 0 0) = .next (st [1] [0x101#32] 1 0) :=
  ⟨by decide, rfl⟩

theorem witness_LoadAcceptsExactlyTheLegalImages :
    (∃ b : Block, b.phase ≠ .started ∧ b.loop = .idle ∧ b.codeCap = 2) ∧ LoadPhase.awaitingImage ≠ .started ∧
    ([0, 2 ^ 32 - 1].length ≤ 2 ∧ ∀ w ∈ [0, 2 ^ 32 - 1], w < 2 ^ 32) ∧ ¬ ([0, 2 ^ 32].length ≤ 2 ∧ ∀ w ∈ [0, 2 ^ 32], w < 2 ^ 32) ∧
    ¬ ([0, 0, 0].length ≤ 2 ∧ ∀ w ∈ [0, 0, 0], w < 2 ^ 32) :=
  ⟨⟨{ state := st [0] [] 0 0, codeCap := 2, phase := .ready, loop := .idle }, by decide⟩, by decide⟩

/-- A block ready to run a halting program, and one after a run: loops with budget 0, a used budget, and none. -/
theorem witness_BudgetedRunRequestReturns :
    (blk [0] [0x000#32] .ready .idle).phase ≠ .awaitingImage ∧ (blk [0] [0x000#32] .ready .idle).loop = .idle ∧
    stepsTaken 0 (blk [0] [0x000#32] .ready .idle).state = 0 ∧ stepsTaken 5 (blk [0] [0x000#32] .ready .idle).state = 1 := by decide

theorem witness_UnbudgetedRunRequestReturnsExactlyAtTheEnd :
    (blk [0] [0x000#32] .started .idle).phase ≠ .awaitingImage ∧ (blk [0] [0x000#32] .started .idle).loop = .idle ∧
    (Block.ticks 2 (blk [0] [0x000#32] .started .unbudgeted)).loop = .idle ∧
    (Block.ticks 1 (blk [0] [0x000#32] .started .unbudgeted)).tick.2 = .returned ⟨1, 0, 0, 0⟩ := by decide

/-- A PRINT in range, a PRINT out of range, and another instruction, with and without a budget. -/
theorem witness_EachPrintIsOneOutputEvent :
    (blk [7] [0x900#32] .ready .unbudgeted).loop = .unbudgeted ∧ (blk [7] [0x900#32] .ready .unbudgeted).state.run = .running ∧
    (blk [7] [0x900#32] .ready .unbudgeted).state.code[0]? = some 0x900#32 ∧
    (blk [7] [0x910#32] .ready (.budgeted 1)).loop = .budgeted (0 + 1) ∧
    (blk [7] [0x910#32] .ready (.budgeted 1)).state.code[0]? = some 0x910#32 ∧
    (blk [7] [0x000#32] .ready (.budgeted 1)).state.code[0]? = some 0x000#32 := by decide

theorem witness_HostReadsAndResetBetweenSteps :
    (blk [7] [] .awaitingImage .idle).loop = .idle ∧ (blk [7] [] .started .unbudgeted).loop ≠ .idle ∧
    (blk [7] [] .started .unbudgeted).phase ≠ .awaitingImage ∧ (blk [7] [] .ready (.budgeted 0)).loop ≠ .idle := by decide

theorem witness_ConstructionFixesTheSizes : (1 ≤ 16 ∧ 16 ≤ 16) ∧ ¬ (1 ≤ 0 ∧ 0 ≤ 16) ∧ ¬ (1 ≤ 17 ∧ 17 ≤ 16) := by decide

theorem witness_HostRequestsKeepTheBlockInv :
    Block.Inv { state := State.launch 4 [0x000#32] 7, codeCap := 1, phase := .ready, loop := .budgeted 0 } ∧
    Block.Inv { state := { State.launch 4 [0x000#32] 7 with run := .halted }, codeCap := 1, phase := .started, loop := .unbudgeted } := by decide

theorem witness_StatusWordEncoding :
    State.Inv 0 { st [0] [0xF00#32] 0 0 with run := .faulted, fault := some ⟨.invalidOpcode, 0, 15⟩ } ∧
    State.Inv 0 { st [0] [0x000#32] 0 0 with run := .halted } ∧ State.Inv 0 (st [0] [0x000#32] 0 0) := by decide

end Sys2Proof.Tests
end

