-- ==== Sys2Proof/Proofs/Scope.lean ====
section
/-! Construction of the block (R5, R114, U10): a launch state is sound, so a freshly constructed block meets `Block.Inv`. -/

namespace Sys2Proof.Machine

theorem nregValid_iff (n : Nat) : Config.nregValid n = true ↔ 1 ≤ n ∧ n ≤ 16 := by
  simp [Config.nregValid]

/-- A launch state is RUNNING and holds no fault record (R24, R31). -/
@[simp] theorem launch_stopTrue (n : Nat) (m : Memory) (c : Nat) : State.stopTrue (State.launch n m c) = true := rfl

theorem launch_sizesOk {n : Nat} (h : 1 ≤ n ∧ n ≤ 16) (m : Memory) (c : Nat) : State.SizesOk (State.launch n m c) := by
  simpa [State.SizesOk] using h

/-- A launch state is the launch of its own register count, image and condpc. -/
theorem launch_eq_relaunch (n : Nat) (m : Memory) (c : Nat) :
    State.launch n m c =
      State.launch (State.launch n m c).nreg (State.launch n m c).code (State.launch n m c).condpc := by
  simp only [launch_nreg, launch_code, launch_condpc]

/-- An idle block in a launch state meets its invariant, whatever the phase of its load port. -/
theorem launch_blockInv {n cap : Nat} {m : Memory} (h : 1 ≤ n ∧ n ≤ 16) (hm : Memory.wf cap m = true) (c : Nat)
    (p : LoadPhase) : Block.Inv { state := State.launch n m c, codeCap := cap, phase := p, loop := .idle } :=
  ⟨hm, launch_sizesOk h m c, launch_stopTrue n m c, fun _ => launch_eq_relaunch n m c, fun hl => absurd rfl hl⟩

theorem construct_of_legal {n : Nat} (h : 1 ≤ n ∧ n ≤ 16) (cap c : Nat) :
    Block.construct n cap c =
      .ok { state := State.launch n [] c, codeCap := cap, phase := .awaitingImage, loop := .idle } :=
  if_pos ((nregValid_iff n).mpr h)

theorem construct_of_illegal {n : Nat} (h : ¬ (1 ≤ n ∧ n ≤ 16)) (cap c : Nat) :
    Block.construct n cap c = .error .registerCount :=
  if_neg (mt (nregValid_iff n).mp h)

/-- Settles O51: a legal count launches an idle block with an empty image, any other count is refused. -/
theorem constructionFixesTheSizes : Obligations.ConstructionFixesTheSizes := by
  intro n cap c
  refine ⟨fun h => ⟨_, construct_of_legal h cap c, ?inv, rfl, ?regs, rfl⟩, fun h => construct_of_illegal h cap c⟩
  case inv => exact launch_blockInv h (reset_memory_wf cap) c _
  case regs => simp

end Sys2Proof.Machine
end

/-! State: what each instruction and each step may change of the seven parts of the state, the invariant of a run, and
what the host reads of it (spec/10_state.md). -/

namespace Sys2Proof

/-! ### The instruction word's fields, kept by the decoder (R51, R64) -/

/-- The opcode of an instruction (R64). -/
@[simp] def Instr.opcode : Instr → Nat
  | .halt => 0
  | .add _ _ => 1
  | .load _ _ => 2
  | .loadw _ _ => 3
  | .copy _ _ => 4
  | .cndpc _ => 5
  | .jmp _ => 6
  | .jmpeq _ _ => 7
  | .jmpeqw _ _ => 8
  | .print _ => 9

/-- The operand an instruction takes from its a1 field, if its form uses that field (R53). -/
@[simp] def Instr.arg1 : Instr → Option Nibble
  | .halt => none
  | .add rA _ | .load rA _ | .loadw rA _ | .copy rA _ | .jmpeq rA _ | .jmpeqw rA _ | .print rA => some rA
  | .cndpc t | .jmp t => some t

/-- The decoder takes the opcode and a1 from their fields. -/
theorem decode_ok_fields {w : Word} {next : Option Word} {i : Instr} (h : decode w next = .ok i) :
    (decodeOpcode w).toNat = i.opcode ∧ ∀ r, i.arg1 = some r → decodeArg1 w = r := by
  rcases decode_cases w next with
    ⟨o, e⟩ | ⟨o, e⟩ | ⟨o, e⟩ | ⟨o, ⟨-, e⟩ | ⟨v, -, e⟩⟩ | ⟨o, e⟩ | ⟨o, e⟩ | ⟨o, e⟩ | ⟨o, e⟩ |
    ⟨o, ⟨-, e⟩ | ⟨v, -, e⟩⟩ | ⟨o, e⟩ | ⟨o, e⟩
  all_goals
    rw [e] at h
    cases h
  all_goals simp [o]

end Sys2Proof

namespace Sys2Proof.Machine

/-- A fetched instruction has the opcode and the a1 of the word at pc. -/
theorem fetch_ok_fields {s : State} {i : Instr} (h : fetch s = .ok i) :
    ∃ w, s.code[s.pc]? = some w ∧ w.toNat / 256 % 16 = i.opcode ∧
      ∀ r, i.arg1 = some r → w.toNat / 16 % 16 = r.toNat := by
  obtain ⟨w, hw, hd⟩ := fetch_ok h
  obtain ⟨hop, harg⟩ := decode_ok_fields hd
  refine ⟨w, hw, by simpa [decodeOpcode_toNat] using hop, fun r hr => ?_⟩
  rw [← harg r hr]
  exact (decodeArg1_toNat w).symm

/-! ### What an instruction changes -/

/-- The next states of an instruction whose register fields are in range, sorted by the part of the state they change. -/
inductive Effect (i : Instr) (s : State) : State → Prop where
  | halt (hi : i = .halt) : Effect i s (haltEngine s)
  | writeReg (rA : Nibble) (v : Word) (k : Nat) (hop : i.opcode ∈ [1, 2, 3, 4]) (harg : i.arg1 = some rA) (hk : k ≤ 2) :
      Effect i s (advance k (regWrite rA v s))
  | writeCondpc (x : Nibble) (hi : i = .cndpc x) : Effect i s (advance 1 (setCondpc x.toNat s))
  | jump (p : Nat) (hop : i.opcode ∈ [6, 7, 8]) (hp : p ≤ s.pc + 2 ∨ p = s.condpc ∨ p ≤ 15) : Effect i s (setPc p s)
  | print (rA : Nibble) (v : Word) (hi : i = .print rA) (hv : regRead rA s = some v) :
      Effect i s (advance 1 (emit v s))

/-- An equality jump goes to condpc or to the instruction after it. -/
theorem equalityJump_effect {i : Instr} {s : State} {k : Nat} (c : Prop) [Decidable c] (hop : i.opcode ∈ [6, 7, 8])
    (hk : k ≤ 2) : Effect i s (if c then setPc s.condpc s else advance k s) := by
  split
  · exact .jump _ hop (.inr (.inl rfl))
  · exact .jump _ hop (.inl (by omega))

theorem exec_effect {i : Instr} {s t : State} (hw : i.wellFormed s.nreg = true) (h : exec i s = .next t) :
    Effect i s t := by
  have e := exec_wellFormed hw
  simp only [h, Host.Outcome.next.injEq] at e
  rcases e with ⟨rfl, rfl⟩ | ⟨rA, n, a, rfl, -, rfl⟩ | ⟨rA, n, a, rfl, -, rfl⟩ | ⟨rA, v, a, rfl, -, rfl⟩ |
    ⟨rA, rB, a, b, rfl, -, -, rfl⟩ | ⟨x, rfl, rfl⟩ | ⟨x, rfl, rfl⟩ | ⟨rA, n, a, rfl, -, rfl⟩ | ⟨rA, v, a, rfl, -, rfl⟩ |
    ⟨rA, a, rfl, ha, rfl⟩
  · exact .halt rfl
  · exact .writeReg rA _ 1 (by simp) rfl (by decide)
  · exact .writeReg rA _ 1 (by simp) rfl (by decide)
  · exact .writeReg rA v 2 (by simp) rfl (by decide)
  · exact .writeReg rA b 1 (by simp) rfl (by decide)
  · exact .writeCondpc x rfl
  · exact .jump _ (by simp) (.inr (.inr (Nat.le_of_lt_succ x.isLt)))
  · exact equalityJump_effect _ (by simp) (by decide)
  · exact equalityJump_effect _ (by simp) (by decide)
  · exact .print rA a rfl ha

/-- ADD, LOAD, LOADW and COPY write one register, the one in a1. -/
theorem exec_writer {i : Instr} {rA : Nibble} {s t : State} (hop : i.opcode ∈ [1, 2, 3, 4]) (harg : i.arg1 = some rA)
    (hw : i.wellFormed s.nreg = true) (h : exec i s = .next t) : ∃ k v, t = advance k (regWrite rA v s) := by
  cases exec_effect hw h with
  | writeReg rB v k _ hB _ =>
    obtain rfl : rB = rA := Option.some.inj (hB.symm.trans harg)
    exact ⟨k, v, rfl⟩
  | halt hi => simp [hi] at hop
  | writeCondpc x hi => simp [hi] at hop
  | jump p hop' _ =>
    simp only [List.mem_cons, List.not_mem_nil, or_false] at hop hop'
    omega
  | print rB v hi _ => simp [hi] at hop

theorem Effect.regs {i : Instr} {s t : State} (h : Effect i s t) :
    t.regs = s.regs ∨
      ∃ rA v, i.opcode ∈ [1, 2, 3, 4] ∧ i.arg1 = some rA ∧ t.regs = s.regs.set rA.toNat v := by
  cases h with
  | writeReg rA v k hop harg _ => exact .inr ⟨rA, v, hop, harg, rfl⟩
  | _ => exact .inl rfl

theorem Effect.condpc {i : Instr} {s t : State} (h : Effect i s t) :
    t.condpc = s.condpc ∨ ∃ x, i = .cndpc x ∧ t.condpc = x.toNat := by
  cases h with
  | writeCondpc x hi => exact .inr ⟨x, hi, rfl⟩
  | _ => exact .inl rfl

theorem Effect.out {i : Instr} {s t : State} (h : Effect i s t) :
    t.out = s.out ∨ ∃ rA v, i = .print rA ∧ regRead rA s = some v ∧ t.out = s.out ++ [v] := by
  cases h with
  | print rA v hi hv => exact .inr ⟨rA, v, hi, hv, rfl⟩
  | _ => exact .inl rfl

/-- No instruction moves pc further than two words ahead, to condpc or to a 4-bit index (R80). -/
theorem Effect.pc {i : Instr} {s t : State} (h : Effect i s t) :
    t.pc ≤ s.pc + 2 ∨ t.pc = s.condpc ∨ t.pc ≤ 15 := by
  cases h with
  | halt _ => exact .inl (Nat.le_add_right _ _)
  | writeReg rA v k _ _ hk => exact .inl (Nat.add_le_add_left hk _)
  | writeCondpc x _ => exact .inl (Nat.le_succ _)
  | jump p _ hp => exact hp
  | print rA v _ _ => exact .inl (Nat.le_succ _)

/-! ### What a step changes -/

/-- A step that changes what a fault leaves alone executes an instruction with its registers in range. -/
theorem step_effect_of_ne {α : Type} {field : State → α} (hfield : ∀ k o s, field (raiseFault k o s) = field s)
    {s t : State} (h : step s = .next t) (hne : field t ≠ field s) : ∃ i, fetch s = .ok i ∧ Effect i s t := by
  obtain ⟨-, ⟨f, -, rfl⟩ | ⟨i, -, -, rfl⟩ | ⟨i, hf, hw, e⟩⟩ := step_next h
  · exact absurd (hfield ..) hne
  · exact absurd (hfield ..) hne
  · exact ⟨i, hf, exec_effect hw e⟩

theorem step_out_of_ne {s t : State} (h : step s = .next t) (hne : t.out ≠ s.out) :
    ∃ w v : Word, s.code[s.pc]? = some w ∧ w.toNat / 256 % 16 = 9 ∧ s.regs[w.toNat / 16 % 16]? = some v ∧
      t.out = s.out ++ [v] := by
  obtain ⟨i, hf, he⟩ := step_effect_of_ne raiseFault_out h hne
  obtain ⟨rA, v, rfl, hv, ho⟩ := he.out.resolve_left hne
  obtain ⟨w, hw, hop, harg⟩ := fetch_ok_fields hf
  exact ⟨w, v, hw, hop, by rw [harg rA rfl]; exact hv, ho⟩

/-- No step takes a value from the output (R28). -/
theorem step_out_extends {s t : State} (h : step s = .next t) : s.out <+: t.out := by
  by_cases he : t.out = s.out
  · rw [he]
  · obtain ⟨-, v, -, -, -, ho⟩ := step_out_of_ne h he
    exact ⟨[v], ho.symm⟩

/-! ### The invariant: run state and fault record -/

theorem opcodeAt_iff (a : Nat) (p : Nibble → Bool) (s : State) :
    State.opcodeAt a p s = true ↔ ∃ w, memRead a s = some w ∧ p (decodeOpcode w) = true := by
  cases h : memRead a s <;> simp [State.opcodeAt, h]

theorem opcodeAt_congr {s t : State} (h : t.code = s.code) (a : Nat) (p : Nibble → Bool) :
    State.opcodeAt a p t = State.opcodeAt a p s := by
  simp [State.opcodeAt, memRead_congr h]

theorem stopTrue_of_running {s : State} (h : s.run = .running) : State.stopTrue s = true ↔ s.fault = none := by
  cases hf : s.fault <;> simp [State.stopTrue, h, hf]

theorem stopTrue_of_halted {s : State} (h : s.run = .halted) :
    State.stopTrue s = true ↔ s.fault = none ∧ State.opcodeAt s.pc (fun op => op == 0) s = true := by
  cases hf : s.fault <;> simp [State.stopTrue, h, hf]

theorem stopTrue_of_faulted {s : State} (h : s.run = .faulted) :
    State.stopTrue s = true ↔ ∃ f, s.fault = some f ∧ State.recordTrue f s = true := by
  cases hf : s.fault <;> simp [State.stopTrue, h, hf]

theorem recordTrue_fpc {f : FaultRecord} {s : State} (h : State.recordTrue f s = true) : f.fpc = s.pc := by
  simp only [State.recordTrue, Bool.and_eq_true, beq_iff_eq] at h
  exact h.1

/-- The record that a failed fetch leaves is true (R72, R74, R75). -/
theorem stopTrue_fetchFault {s : State} {f : FaultKind × Option Nibble} (h : fetch s = .error f) :
    State.stopTrue (raiseFault f.1 f.2 s) = true := by
  refine (stopTrue_of_faulted rfl).mpr ⟨_, rfl, ?_⟩
  rcases fetch_error h with ⟨hpc, rfl⟩ | ⟨w, hw, ⟨hop, rfl⟩ | ⟨hop, hpc, rfl⟩⟩
  · simp [State.recordTrue, hpc]
  · have hat : State.opcodeAt s.pc (fun op => op == decodeOpcode w) s = true := (opcodeAt_iff _ _ _).mpr ⟨w, hw, by simp⟩
    simp [State.recordTrue, hop, opcodeAt_congr (raiseFault_code _ _ s), hat]
  · have hat : State.opcodeAt s.pc (fun op => op == 3 || op == 8) s = true :=
      (opcodeAt_iff _ _ _).mpr ⟨w, hw, by simpa using hop⟩
    simpa [State.recordTrue, hpc, opcodeAt_congr (raiseFault_code _ _ s)] using Or.inr hat

/-- The record that a failed register check leaves is true (R76). -/
theorem stopTrue_registerFault {s : State} {i : Instr} (hf : fetch s = .ok i) (hw : i.wellFormed s.nreg = false) :
    State.stopTrue (raiseFault .registerOutOfRange none s) = true := by
  refine (stopTrue_of_faulted rfl).mpr ⟨_, rfl, ?_⟩
  have hf' : fetch (raiseFault .registerOutOfRange none s) = .ok i :=
    (fetch_congr (raiseFault_code ..) (raiseFault_pc ..)).trans hf
  simp [State.recordTrue, hf', hw]

/-- An instruction that does not fault leaves no record, and HALT stops at itself (R82). -/
theorem stopTrue_exec {s t : State} {i : Instr} (hr : s.run = .running) (hs : State.stopTrue s = true)
    (hf : fetch s = .ok i) (hw : i.wellFormed s.nreg = true) (h : exec i s = .next t) : State.stopTrue t = true := by
  have hnone := (stopTrue_of_running hr).mp hs
  obtain ⟨hfault, hrun | ⟨rfl, hrun⟩, -, -⟩ := exec_wellFormed_keeps hw h
  · exact (stopTrue_of_running (hrun.trans hr)).mpr (hfault.trans hnone)
  · obtain rfl : haltEngine s = t := by simpa [exec_halt] using h
    obtain ⟨w, hcode, hd⟩ := fetch_ok hf
    have hop : decodeOpcode w = 0 := BitVec.eq_of_toNat_eq (decode_ok_fields hd).1
    exact (stopTrue_of_halted rfl).mpr ⟨hnone, (opcodeAt_iff _ _ _).mpr ⟨w, hcode, by simp [hop]⟩⟩

theorem step_keeps_stopTrue {s t : State} (hs : State.stopTrue s = true) (h : step s = .next t) :
    State.stopTrue t = true := by
  obtain ⟨hr, ⟨f, hf, rfl⟩ | ⟨i, hf, hw, rfl⟩ | ⟨i, hf, hw, e⟩⟩ := step_next h
  · exact stopTrue_fetchFault hf
  · exact stopTrue_registerFault hf hw
  · exact stopTrue_exec hr hs hf hw e

/-! ### The invariant: bounds of pc and condpc -/

/-- An executed instruction stood inside code memory, so the largest advance ends one word past it (R20). -/
theorem effect_keeps_indexesBounded {c : Nat} {i : Instr} {s t : State} (hb : State.IndexesBounded c s)
    (hpc : s.pc < s.codeLen) (hlen : t.codeLen = s.codeLen) (h : Effect i s t) : State.IndexesBounded c t := by
  obtain ⟨-, hc⟩ := hb
  refine ⟨?pc, ?condpc⟩
  case pc =>
    have := h.pc
    omega
  case condpc =>
    rcases h.condpc with e | ⟨x, -, e⟩
    · rwa [e]
    · have := x.isLt
      omega

theorem step_keeps_indexesBounded {c : Nat} {s t : State} (hb : State.IndexesBounded c s) (h : step s = .next t) :
    State.IndexesBounded c t := by
  have hlen : t.codeLen = s.codeLen := congrArg List.length (step_keeps_sizes h).1
  obtain ⟨-, ⟨f, -, rfl⟩ | ⟨i, -, -, rfl⟩ | ⟨i, hf, hw, e⟩⟩ := step_next h
  · exact hb
  · exact hb
  · obtain ⟨w, hcode, -⟩ := fetch_ok hf
    exact effect_keeps_indexesBounded hb (memRead_lt hcode) hlen (exec_effect hw e)

/-- Settles O32, part by part: the sizes, the run state with its record, the bounds. -/
theorem stepKeepsInv : Obligations.StepKeepsInv := by
  rintro c s t ⟨hsizes, hstop, hbounds⟩ h
  have hn : t.nreg = s.nreg := (step_keeps_sizes h).2
  exact ⟨by rwa [State.SizesOk, hn], step_keeps_stopTrue hstop h, step_keeps_indexesBounded hbounds h⟩

theorem launch_inv (n : Nat) (image : Memory) (c : Nat) (h1 : 1 ≤ n) (h16 : n ≤ 16) :
    State.Inv c (State.launch n image c) :=
  ⟨launch_sizesOk ⟨h1, h16⟩ image c, launch_stopTrue n image c, Nat.zero_le _, .inl rfl⟩

/-- Settles O33: the model's reset is a launch of the reference configuration. -/
theorem invHoldsAtReset : Obligations.InvHoldsAtReset :=
  ⟨launch_inv, launch_inv _ _ _ (by decide) (by decide)⟩

/-! ### Registers -/

/-- Settles O14: either the register check fails and a fault is taken, or one register is written and pc advances. -/
theorem registerWriterFrame : Obligations.RegisterWriterFrame := by
  intro i rA s t hi h
  have hfields : i.opcode ∈ [1, 2, 3, 4] ∧ i.arg1 = some rA := by
    rcases hi with ⟨n, rfl⟩ | ⟨n, rfl⟩ | ⟨v, rfl⟩ | ⟨rB, rfl⟩ <;> simp
  cases hw : i.wellFormed s.nreg with
  | false =>
    rw [exec_illFormed hw] at h
    obtain rfl : raiseFault .registerOutOfRange none s = t := by simpa using h
    have hw' : i.wellFormed s.regs.length = false := hw
    simp [hw', memRead]
  | true =>
    obtain ⟨k, v, rfl⟩ := exec_writer hfields.1 hfields.2 hw h
    have hw' : i.wellFormed s.regs.length = true := hw
    refine ⟨rfl, fun _ => rfl, rfl, rfl, regWrite_nreg rA v s, fun q hq => ?_, fun _ => ⟨rfl, rfl⟩, by simp [hw']⟩
    exact List.getElem?_set_ne hq.symm

/-- Settles O21: an out-of-range field fails the register check, and no instruction faults after it. -/
theorem registerFieldOutOfRangeFaults : Obligations.RegisterFieldOutOfRangeFaults := by
  refine ⟨?illFormed, ?wellFormed⟩
  case illFormed =>
    rintro i s ⟨r, hr, hlt⟩
    have hw : i.wellFormed s.nreg = false := by
      rw [← Bool.not_eq_true, wellFormed_iff]
      exact fun h => absurd (h r hr) (Nat.not_lt.mpr hlt)
    exact ⟨_, _, exec_illFormed hw, rfl, rfl, rfl, rfl, rfl⟩
  case wellFormed =>
    intro i s t hr h
    obtain ⟨hfault, hrun, -, -⟩ := exec_wellFormed_keeps ((wellFormed_iff s.nreg i).mpr hr) h
    exact ⟨hfault, hrun.imp_right And.right⟩

theorem runLoop_nreg (s : State) (budget : Nat) : (runLoop budget s).nreg = s.nreg :=
  runLoop_induction (P := fun u => u.nreg = s.nreg) (fun _ _ hu h => (step_keeps_sizes h).2.trans hu) budget rfl

theorem load_nreg (image : List Nat) (b : Block) : (b.load image).1.state.nreg = b.state.nreg := by
  rcases load_cases image b with ⟨-, e⟩ | ⟨-, -, ⟨r, -, e⟩ | ⟨-, e⟩⟩
  · rw [e]
  · rw [e]
  · rw [e]; rfl

theorem request_nreg (b : Block) (q : HostRequest) : (b.request q).1.state.nreg = b.state.nreg := by
  cases q with
  | load image => exact load_nreg image b
  | reset c => exact resetState_nreg c b.state
  | run budget => rw [(request_run_fields budget b).1]
  | readStatus => rfl
  | inspect => rfl

/-- Settles O27, for a step, a run, a request and a move of the loop. -/
theorem registerCountIsFixed : Obligations.RegisterCountIsFixed :=
  ⟨fun _ _ h => (step_keeps_sizes h).2, runLoop_nreg, request_nreg, fun b => (tick_keeps_sizes b).2.1⟩

/-- Settles O28: the executed instruction is a register writer, and it writes the register in a1. -/
theorem onlyFourInstructionsWriteRegisters : Obligations.OnlyFourInstructionsWriteRegisters := by
  intro s t h hne
  obtain ⟨i, hf, he⟩ := step_effect_of_ne raiseFault_regs h hne
  obtain ⟨rA, v, hop, harg, hregs⟩ := he.regs.resolve_left hne
  obtain ⟨w, hcode, hwop, hwarg⟩ := fetch_ok_fields hf
  refine ⟨w, hcode, by rwa [hwop], fun q hq => ?_⟩
  rw [hwarg rA harg] at hq
  rw [hregs, List.getElem?_set_ne hq.symm]

/-- Settles O29: the executed instruction is CNDPC, and it writes its 4-bit field. -/
theorem onlyCndpcWritesCondpc : Obligations.OnlyCndpcWritesCondpc := by
  intro s t h hne
  obtain ⟨i, hf, he⟩ := step_effect_of_ne raiseFault_condpc h hne
  obtain ⟨x, rfl, hx⟩ := he.condpc.resolve_left hne
  obtain ⟨w, hcode, hop, harg⟩ := fetch_ok_fields hf
  exact ⟨w, hcode, hop, hx.trans (harg x rfl).symm, hx.trans_le (Nat.le_of_lt_succ x.isLt)⟩

/-! ### Output -/

/-- Settles O30; the last clause is an induction over the run. -/
theorem onlyPrintAppendsToTheOutput : Obligations.OnlyPrintAppendsToTheOutput :=
  ⟨launch_out, fun _ _ => step_out_of_ne, fun s budget =>
    runLoop_induction (P := fun u => s.out <+: u.out) (fun _ _ hu h => hu.trans (step_out_extends h)) budget
      (List.prefix_refl _)⟩

theorem outputsSince_of_append {s t : State} {vs : List Word} (h : t.out = s.out ++ vs) :
    outputsSince s t = vs.map signedW := by
  simp [outputsSince, h]

theorem outputsSince_of_eq {s t : State} (h : t.out = s.out) : outputsSince s t = [] :=
  outputsSince_of_append (vs := []) (by simpa using h)

/-- A word with opcode 9 is fetched as PRINT of its a1. -/
theorem fetch_print {s : State} {w : Word} (hw : s.code[s.pc]? = some w) (hop : w.toNat / 256 % 16 = 9) :
    fetch s = .ok (.print (decodeArg1 w)) :=
  fetch_of_decode hw (decode_print _ (BitVec.eq_of_toNat_eq ((decodeOpcode_toNat w).trans hop)))

/-- The one value that a step with `w` at pc prints, or none. -/
theorem step_outputs {s t : State} {w : Word} (h : step s = .next t) (hw : s.code[s.pc]? = some w) :
    outputsSince s t =
      if w.toNat / 256 % 16 = 9 then
        match s.regs[w.toNat / 16 % 16]? with
        | some v => [v.toInt]
        | none => []
      else [] := by
  split
  next hop =>
    rw [step_of_fetch (step_next h).1 (fetch_print hw hop)] at h
    have hread : regRead (decodeArg1 w) s = s.regs[w.toNat / 16 % 16]? :=
      congrArg (s.regs[·]?) (decodeArg1_toNat w)
    rw [← hread]
    cases hv : regRead (decodeArg1 w) s with
    | some v =>
      obtain rfl : advance 1 (emit v s) = t := by simpa [exec_print hv] using h
      exact outputsSince_of_append (vs := [v]) rfl
    | none =>
      have hill : (Instr.print (decodeArg1 w)).wellFormed s.nreg = false := by
        simpa [Instr.wellFormed, Instr.regFields] using (regRead_eq_none_iff _ _).mp hv
      obtain rfl : raiseFault .registerOutOfRange none s = t := by simpa [exec_illFormed hill] using h
      exact outputsSince_of_eq rfl
  next hop =>
    refine outputsSince_of_eq (by_contra fun hne => ?_)
    obtain ⟨w', -, hw', hop', -⟩ := step_out_of_ne h hne
    obtain rfl : w = w' := Option.some.inj (hw.symm.trans hw')
    exact hop hop'

/-- A loop with steps left and run RUNNING performs a step and delivers what it printed. -/
theorem tick_event_of_running {b : Block} (hl : b.loop = .unbudgeted ∨ ∃ left, b.loop = .budgeted (left + 1))
    (hr : b.state.run = .running) :
    ∃ t, step b.state = .next t ∧ b.tick.2 = .stepped (outputsSince b.state t) := by
  obtain ⟨t, ht⟩ := step_exists_next hr
  refine ⟨t, ht, ?_⟩
  rcases hl with hl | ⟨left, hl⟩
  · rw [tick_unbudgeted hl, loopStep_next _ ht]
  · rw [tick_budgeted hl, loopStep_next _ ht]

/-- Settles O57: the move delivers the step's output values. -/
theorem eachPrintIsOneOutputEvent : Obligations.EachPrintIsOneOutputEvent := by
  intro b w hl hr hw
  obtain ⟨t, ht, e⟩ := tick_event_of_running hl hr
  exact e.trans (congrArg LoopEvent.stepped (step_outputs ht hw))

/-! ### Run state and status -/

/-- Where a step leaves run: RUNNING, HALTED by HALT, or FAULTED with a record of this pc. -/
theorem step_run_cases {s t : State} (h : step s = .next t) :
    t.run = .running ∨ (t.run = .halted ∧ fetch s = .ok .halt) ∨
      (t.run = .faulted ∧ ∃ f : FaultRecord, t.fault = some f ∧ f.fpc = s.pc) := by
  obtain ⟨hr, ⟨f, -, rfl⟩ | ⟨i, -, -, rfl⟩ | ⟨i, hf, hw, e⟩⟩ := step_next h
  · exact .inr (.inr ⟨rfl, _, rfl, rfl⟩)
  · exact .inr (.inr ⟨rfl, _, rfl, rfl⟩)
  · obtain ⟨-, hrun | ⟨rfl, hrun⟩, -, -⟩ := exec_wellFormed_keeps hw e
    · exact .inl (hrun.trans hr)
    · exact .inr (.inl ⟨hrun, hf⟩)

/-- Settles O31: a step leaves run HALTED only by HALT and FAULTED only with a new record, and a stopped loop is still. -/
theorem onlyHaltAndFaultsEndARun : Obligations.OnlyHaltAndFaultsEndARun := by
  refine ⟨fun s t h ht => ?halted, fun s t h ht => ?faulted, fun s budget hs => by rw [runLoop_stopped budget hs]⟩
  case halted =>
    obtain e | ⟨-, hf⟩ | ⟨e, -⟩ := step_run_cases h
    · simp [e] at ht
    · obtain ⟨w, hcode, hop, -⟩ := fetch_ok_fields hf
      exact ⟨w, hcode, hop⟩
    · simp [e] at ht
  case faulted =>
    obtain e | ⟨e, -⟩ | ⟨-, hrecord⟩ := step_run_cases h
    · simp [e] at ht
    · simp [e] at ht
    · exact hrecord

theorem statusWord_of_no_fault {s : State} (h : s.fault = none) : statusWord s = ⟨runCode s.run, 0, 0, 0⟩ := by
  simp [statusWord, h]

theorem statusWord_of_fault {s : State} {f : FaultRecord} (h : s.fault = some f) :
    statusWord s =
      ⟨runCode s.run, kindCode f.kind, f.fpc, if f.kind = .invalidOpcode then f.fopcode else 0⟩ := by
  cases hk : f.kind <;> simp [statusWord, h, hk]

theorem kindCode_ne_zero (k : FaultKind) : kindCode k ≠ 0 := by cases k <;> decide

theorem statusWord_run (s : State) : (statusWord s).run = runCode s.run := by
  cases h : s.fault with
  | none => rw [statusWord_of_no_fault h]
  | some f => rw [statusWord_of_fault h]

/-- Settles O53: the invariant decides whether there is a record, and in FAULTED its fpc is the pc. -/
theorem statusWordEncoding : Obligations.StatusWordEncoding := by
  rintro c s ⟨-, hstop, -⟩
  refine ⟨fun hr => ?running, fun hr => ?halted, fun hr => ?faulted, ?run⟩
  case running => rw [statusWord_of_no_fault ((stopTrue_of_running hr).mp hstop), hr]; rfl
  case halted => rw [statusWord_of_no_fault ((stopTrue_of_halted hr).mp hstop).1, hr]; rfl
  case faulted =>
    obtain ⟨f, hf, htrue⟩ := (stopTrue_of_faulted hr).mp hstop
    rw [statusWord_of_fault hf, hr, recordTrue_fpc htrue]
    exact ⟨f, hf, rfl, kindCode_ne_zero f.kind, rfl, fun hk => by simp [hk, runCode, kindCode],
      fun hk => by simp [hk, runCode, kindCode], fun hk => by simp [hk, runCode, kindCode]⟩
  case run =>
    rw [statusWord_run]
    cases s.run <;> decide

/-! ### Reset and the host's reads -/

/-- Settles O1: a launch fills the register file with zeros, and the model's reset is a launch. -/
theorem registersAndPcAreZeroAtReset : Obligations.RegistersAndPcAreZeroAtReset := by
  refine ⟨fun n image c => ⟨by simp, fun i hi => by simp [hi], rfl, rfl⟩, fun v hv => ?_, rfl, rfl⟩
  exact List.eq_of_mem_replicate hv

/-- Settles O2: the host's reset is the launch of the block's own register count and image. -/
theorem hostResetGivesTheLaunchState : Obligations.HostResetGivesTheLaunchState :=
  fun _ _ => ⟨rfl, rfl, rfl⟩

theorem ticks_of_idle (n : Nat) {b : Block} (h : b.loop = .idle) : Block.ticks n b = b := by
  induction n with
  | zero => rfl
  | succ n ih => rw [ticks_succ, tick_idle h, ih]

theorem received_of_idle (n : Nat) {b : Block} (h : b.loop = .idle) : Block.received n b = [] := by
  induction n with
  | zero => rfl
  | succ n ih => rw [received_succ, tick_idle h, ih]; rfl

/-- A run request during a loop is refused as such. -/
theorem runRefusal_of_loop {b : Block} (hl : b.loop ≠ .idle) (hp : b.phase ≠ .awaitingImage) :
    b.runRefusal = some .loopRunning := by
  simp [Block.runRefusal, hl, hp]

/-- Settles O58: a reset leaves no loop, so no later move changes the state or delivers a value. -/
theorem hostReadsAndResetBetweenSteps : Obligations.HostReadsAndResetBetweenSteps := by
  refine ⟨request_readStatus, fun b hl => ?idle, fun b budget hl hp => ⟨?inspect, ?run⟩, fun b c n => ⟨?state, ?received⟩⟩
  case idle => simp only [Block.request, if_pos hl]; rfl
  case inspect => simp only [Block.request, if_neg hl]
  case run => exact request_run_refused budget (runRefusal_of_loop hl hp)
  case state => rw [request_reset, ticks_of_idle n (reset_loop c b)]; rfl
  case received => exact received_of_idle n (reset_loop c b)

end Sys2Proof.Machine

/-! Code memory: nothing but a load before the first step changes it, what its read port answers, and which images the
load port accepts (spec/20_memory.md). -/

namespace Sys2Proof.Machine

/-! ### What leaves code memory alone (R33, R39) -/

theorem exec_code {i : Instr} {s t : State} (h : exec i s = .next t) : t.code = s.code := by
  cases hw : i.wellFormed s.nreg with
  | false =>
    obtain rfl : raiseFault .registerOutOfRange none s = t := by simpa [exec_illFormed hw] using h
    rfl
  | true =>
    obtain ⟨-, -, hcode, -⟩ := exec_wellFormed_keeps hw h
    exact hcode

theorem runLoop_code (s : State) (budget : Nat) : (runLoop budget s).code = s.code :=
  runLoop_induction (P := fun u => u.code = s.code) (fun _ _ hu h => (step_keeps_sizes h).1.trans hu) budget rfl

theorem request_code {q : HostRequest} (hq : ∀ image, q ≠ .load image) (b : Block) :
    (b.request q).1.state.code = b.state.code := by
  cases q with
  | load image => exact absurd rfl (hq image)
  | reset c => exact resetState_code c b.state
  | run budget => rw [(request_run_fields budget b).1]
  | readStatus => rfl
  | inspect => rfl

theorem load_closed {b : Block} (h : b.phase = .started ∨ b.loop ≠ .idle) (image : List Nat) :
    b.load image = (b, some .loadClosed) :=
  if_pos h

/-- Settles O26, for a run, an instruction, a request, a move of the loop, and a load after the port has closed. -/
theorem codeMemoryIsReadOnly : Obligations.CodeMemoryIsReadOnly := by
  refine ⟨runLoop_code, fun _ _ _ => exec_code, fun b _ hq => request_code hq b, fun b => (tick_keeps_sizes b).1, ?closed⟩
  case closed =>
    intro b image h
    rw [request_load, load_closed h]
    rfl

/-! ### The read port (R37, R40, R42) -/

/-- Settles O49: the read port is bounded by CODE_LEN, and a step keeps code memory. -/
theorem codeReadsAreBounded : Obligations.CodeReadsAreBounded :=
  ⟨memRead_eq_none_iff, fun _ _ h => List.getElem?_eq_getElem h, fun a _ _ h => memRead_congr (step_keeps_sizes h).1 a⟩

/-! ### The load port (R38) -/

/-- An image is legal exactly when it fits and each of its words is a 32-bit pattern. -/
theorem imageProblem_eq_none_iff (cap : Nat) (image : List Nat) :
    imageProblem cap image = none ↔ image.length ≤ cap ∧ ∀ w ∈ image, w < 2 ^ 32 := by
  constructor
  case mp =>
    intro h
    obtain ⟨hwf, hwords⟩ := imageProblem_none_wf h
    exact ⟨by simpa [Memory.wf] using hwf, hwords⟩
  case mpr =>
    rintro ⟨hlen, hwords⟩
    have hany : ¬ image.any (fun w => decide (2 ^ 32 ≤ w)) = true := by simpa using hwords
    exact (if_neg (Nat.not_lt.mpr hlen)).trans (if_neg hany)

/-- The words of a legal image are stored whole. -/
theorem map_toNat_map_ofNat {image : List Nat} (h : ∀ w ∈ image, w < 2 ^ 32) :
    (image.map (BitVec.ofNat 32)).map BitVec.toNat = image := by
  have hword : ∀ w ∈ image, (BitVec.toNat ∘ BitVec.ofNat 32) w = id w :=
    fun w hw => (BitVec.toNat_ofNat w 32).trans (Nat.mod_eq_of_lt (h w hw))
  rw [List.map_map, List.map_congr_left hword, List.map_id]

theorem load_legal {b : Block} {image : List Nat} (hp : b.phase ≠ .started) (hl : b.loop = .idle)
    (h : imageProblem b.codeCap image = none) :
    b.load image = ({ b with state := { b.state with code := image.map (BitVec.ofNat 32) }, phase := .ready }, none) := by
  rcases load_cases image b with ⟨hclosed, -⟩ | ⟨-, -, ⟨r, hr, -⟩ | ⟨-, e⟩⟩
  · simp [hp, hl] at hclosed
  · simp [h] at hr
  · exact e

theorem load_illegal {b : Block} {image : List Nat} (hp : b.phase ≠ .started) (hl : b.loop = .idle)
    (h : imageProblem b.codeCap image ≠ none) :
    ∃ r, b.load image = ({ b with phase := .awaitingImage }, some r) := by
  rcases load_cases image b with ⟨hclosed, -⟩ | ⟨-, -, ⟨r, -, e⟩ | ⟨hnone, -⟩⟩
  · simp [hp, hl] at hclosed
  · exact ⟨r, e⟩
  · exact absurd hnone h

theorem runRefusal_of_awaitingImage {b : Block} (h : b.phase = .awaitingImage) : b.runRefusal = some .noImage :=
  if_pos h

/-- Settles O50: a legal image becomes the code memory; after any other the port awaits an image, and then no run starts. -/
theorem loadAcceptsExactlyTheLegalImages : Obligations.LoadAcceptsExactlyTheLegalImages := by
  intro b image hp hl
  rw [← imageProblem_eq_none_iff]
  refine ⟨fun h => ?legal, fun h => ?illegal⟩
  case legal =>
    have hwords := ((imageProblem_eq_none_iff _ _).mp h).2
    rw [request_load, load_legal hp hl h]
    exact ⟨rfl, rfl, map_toNat_map_ofNat hwords⟩
  case illegal =>
    obtain ⟨r, e⟩ := load_illegal hp hl h
    rw [request_load, e]
    refine ⟨⟨r, rfl⟩, rfl, fun budget => ?_⟩
    rw [request_run_refused budget (runRefusal_of_awaitingImage rfl)]
    exact ⟨rfl, rfl, hl⟩

end Sys2Proof.Machine

/-! Encoding: the encoder and the decoder undo each other, the bits a form ignores do not matter, and the assembler emits
the canonical words (spec/30_encoding.md). -/

namespace Sys2Proof

/-! ### Packing the decoded fields again (R51, R56, R58) -/

/-- A mask of `n` ones from bit `lo` up keeps one field in its place. -/
theorem and_fieldMask (x n lo : Nat) : x &&& ((2 ^ n - 1) <<< lo) = x / 2 ^ lo % 2 ^ n * 2 ^ lo := by
  have hshift : x &&& ((2 ^ n - 1) <<< lo) = ((x >>> lo) &&& (2 ^ n - 1)) <<< lo := by
    apply Nat.eq_of_testBit_eq
    intro i
    by_cases h : lo ≤ i <;> simp [h, Bool.and_comm]
  rw [hshift, Nat.and_two_pow_sub_one_eq_mod, Nat.shiftLeft_eq, Nat.shiftRight_eq_div_pow]

theorem encodeFields_decoded (w : Word) :
    encodeFields (decodeOpcode w) (decodeArg1 w) (decodeArg2 w) = w &&& 0xFFF#32 := by
  have hmask : (w &&& 0xFFF#32).toNat = _ := and_fieldMask w.toNat 12 0
  apply BitVec.eq_of_toNat_eq
  rw [hmask, encodeFields_toNat, decodeOpcode_toNat, decodeArg1_toNat, decodeArg2_toNat]
  omega

theorem encodeFields_opcode_arg1 (w : Word) : encodeFields (decodeOpcode w) (decodeArg1 w) 0 = w &&& 0xFF0#32 := by
  have hmask : (w &&& 0xFF0#32).toNat = _ := and_fieldMask w.toNat 8 4
  apply BitVec.eq_of_toNat_eq
  rw [hmask, encodeFields_toNat, decodeOpcode_toNat, decodeArg1_toNat, BitVec.ofNat_eq_ofNat, BitVec.toNat_zero]
  omega

theorem encodeFields_opcode (w : Word) : encodeFields (decodeOpcode w) 0 0 = w &&& 0xF00#32 := by
  apply BitVec.eq_of_toNat_eq
  rw [mask_toNat, encodeFields_toNat, decodeOpcode_toNat, BitVec.ofNat_eq_ofNat, BitVec.toNat_zero]
  omega

/-- No two triples of fields share a word, because the decoder reads them back. -/
theorem encodeFields_inj {op a1 a2 op' a1' a2' : Nibble} (h : encodeFields op a1 a2 = encodeFields op' a1' a2') :
    op = op' ∧ a1 = a1' ∧ a2 = a2' := by
  have hop := congrArg decodeOpcode h
  have h1 := congrArg decodeArg1 h
  have h2 := congrArg decodeArg2 h
  simp only [decodeOpcode_encodeFields, decodeArg1_encodeFields, decodeArg2_encodeFields] at hop h1 h2
  exact ⟨hop, h1, h2⟩

/-! ### What the decoder looks at (R52, R66) -/

theorem decodeOpcode_eq_iff (w : Word) (op : Nibble) : decodeOpcode w = op ↔ w.toNat / 256 % 16 = op.toNat := by
  have hop : (decodeOpcode w).toNat = w.toNat / 256 % 16 := decodeOpcode_toNat w
  rw [← hop, BitVec.toNat_inj]

theorem decode_congr {w w' : Word} (next : Option Word) (hop : decodeOpcode w = decodeOpcode w')
    (h1 : decodeArg1 w = decodeArg1 w') (h2 : decodeArg2 w = decodeArg2 w') : decode w next = decode w' next := by
  simp only [decode, hop, h1, h2]

/-- The forms RW, T and R do not look at a2 (R53). -/
theorem decode_congr_arg1 {w w' : Word} (next : Option Word) (hop : decodeOpcode w = decodeOpcode w')
    (h1 : decodeArg1 w = decodeArg1 w') (hform : (decodeOpcode w').toNat ∈ [3, 5, 6, 8, 9]) :
    decode w next = decode w' next := by
  have hops : ∀ op : Nibble, op.toNat ∈ [3, 5, 6, 8, 9] → op = 3 ∨ op = 5 ∨ op = 6 ∨ op = 8 ∨ op = 9 := by decide
  rcases hops _ hform with h | h | h | h | h <;> simp [decode, hop, h1, h]

/-- Only LOADW and JMPEQW look at the next word (R75). -/
theorem decode_narrow {w : Word} (h3 : decodeOpcode w ≠ 3) (h8 : decodeOpcode w ≠ 8) (next next' : Option Word) :
    decode w next = decode w next' := by
  unfold decode
  split
  case h_4 h => exact absurd h h3
  case h_9 h => exact absurd h h8
  all_goals rfl

/-- A word is the first half of a two-word instruction exactly when its opcode is that of LOADW or JMPEQW. -/
theorem decode_needs_next_iff (w : Word) :
    (∃ e, decode w none = .error e ∧ ∀ v, ∃ i, decode w (some v) = .ok i) ↔ decodeOpcode w = 3 ∨ decodeOpcode w = 8 := by
  constructor
  · rintro ⟨e, hnone, hsome⟩
    by_contra hwide
    obtain ⟨h3, h8⟩ := not_or.mp hwide
    obtain ⟨i, hi⟩ := hsome 0
    cases hnone.symm.trans ((decode_narrow h3 h8 none (some 0)).trans hi)
  · intro hwide
    refine ⟨_, decode_missing hwide, fun v => ?_⟩
    rcases hwide with h | h
    · exact ⟨_, decode_loadw v h⟩
    · exact ⟨_, decode_jmpeqw v h⟩

/-- The opcode of an instruction gives its length (R52). -/
theorem words_eq_of_opcode (i : Instr) : i.words = if i.opcode = 3 ∨ i.opcode = 8 then 2 else 1 := by
  cases i <;> rfl

/-! ### Assembler lines (R68) -/

/-- The line that stands for an instruction, its wide operand written as `wide` reads the pattern. -/
def Instr.asmLine (wide : Word → Int) : Instr → AsmLine
  | .halt => .halt
  | .add rA n => .add rA.toNat n.toNat
  | .load rA n => .load rA.toNat n.toNat
  | .loadw rA v => .loadw rA.toNat (wide v)
  | .copy rA rB => .copy rA.toNat rB.toNat
  | .cndpc t => .cndpc t.toNat
  | .jmp t => .jmp t.toNat
  | .jmpeq rA n => .jmpeq rA.toNat n.toNat
  | .jmpeqw rA v => .jmpeqw rA.toNat (wide v)
  | .print rA => .print rA.toNat

theorem assemble_of_wellFormed {l : AsmLine} (h : l.wellFormed = true) : assemble l = some (asmWords l) := if_pos h

theorem assemble_eq_none {l : AsmLine} (h : l.wellFormed = false) : assemble l = none := by simp [assemble, h]

@[simp] theorem fitsNibble_toNat (a : Nibble) : fitsNibble a.toNat = true := decide_eq_true a.isLt

theorem fitsNibble_of_le {a : Nat} (h : 16 ≤ a) : fitsNibble a = false := decide_eq_false (Nat.not_lt.mpr h)

theorem fitsWide_iff (v : Int) : fitsWide v = true ↔ -(2 ^ 31) ≤ v ∧ v < 2 ^ 32 := by simp [fitsWide]

theorem fitsNibble_and_misfits {a n : Nat} (h : 16 ≤ a ∨ 16 ≤ n) : (fitsNibble a && fitsNibble n) = false := by
  rcases h with h | h <;> simp [fitsNibble_of_le h]

theorem fitsNibble_fitsWide_misfits {a : Nat} {v : Int} (h : 16 ≤ a ∨ v < -(2 ^ 31) ∨ 2 ^ 32 ≤ v) :
    (fitsNibble a && fitsWide v) = false := by
  rcases h with h | h
  · simp [fitsNibble_of_le h]
  · have hv : ¬ fitsWide v = true := by
      rw [fitsWide_iff]
      omega
    simp [hv]

/-- With a reading of the wide operand that fits and gives the pattern back, an instruction's line assembles to its
canonical words. -/
theorem assemble_asmLine {wide : Word → Int} (hfit : ∀ v, fitsWide (wide v) = true)
    (hbits : ∀ v, BitVec.ofInt 32 (wide v) = v) (i : Instr) : assemble (i.asmLine wide) = some (encode i) := by
  have hwords : asmWords (i.asmLine wide) = encode i := by
    cases i with
    | loadw rA v => exact congrArg (fun x => [encodeFields 3 rA 0, x]) (hbits v)
    | jmpeqw rA v => exact congrArg (fun x => [encodeFields 8 rA 0, x]) (hbits v)
    | _ => rfl
  have hline : (i.asmLine wide).wellFormed = true := by
    cases i <;> simp [Instr.asmLine, AsmLine.wellFormed, hfit]
  rw [assemble_of_wellFormed hline, hwords]

/-- The wide operand written as a pattern. -/
theorem assemble_pattern (i : Instr) : assemble (i.asmLine fun v => v.toNat) = some (encode i) := by
  refine assemble_asmLine (fun v => ?fits) (fun v => ?bits) i
  case fits =>
    have := v.isLt
    rw [fitsWide_iff]
    omega
  case bits => simp

/-- The wide operand written as a signed value. -/
theorem assemble_signed (i : Instr) : assemble (i.asmLine BitVec.toInt) = some (encode i) := by
  refine assemble_asmLine (fun v => ?fits) (fun v => BitVec.ofInt_toInt) i
  case fits =>
    have := v.toInt_lt
    have := v.le_toInt
    rw [fitsWide_iff]
    omega

end Sys2Proof

namespace Sys2Proof.Machine

/-- Settles O39: each form's opcode selects its own row of R64, which reads back the fields the encoder packed. -/
theorem decodeOfEncode : Obligations.DecodeOfEncode := by
  intro i after
  have hop := decodeOpcode_encodeFields
  have h1 := decodeArg1_encodeFields
  have h2 := decodeArg2_encodeFields
  cases i with
  | halt => exact ⟨_, _, rfl, decode_halt _ (hop _ _ _)⟩
  | add rA n => exact ⟨_, _, rfl, by rw [decode_add _ (hop _ _ _), h1, h2]⟩
  | load rA n => exact ⟨_, _, rfl, by rw [decode_load _ (hop _ _ _), h1, h2]⟩
  | loadw rA v => exact ⟨_, _, rfl, (decode_loadw v (hop _ _ _)).trans (by rw [h1])⟩
  | copy rA rB => exact ⟨_, _, rfl, by rw [decode_copy _ (hop _ _ _), h1, h2]⟩
  | cndpc t => exact ⟨_, _, rfl, by rw [decode_cndpc _ (hop _ _ _), h1]⟩
  | jmp t => exact ⟨_, _, rfl, by rw [decode_jmp _ (hop _ _ _), h1]⟩
  | jmpeq rA n => exact ⟨_, _, rfl, by rw [decode_jmpeq _ (hop _ _ _), h1, h2]⟩
  | jmpeqw rA v => exact ⟨_, _, rfl, (decode_jmpeqw v (hop _ _ _)).trans (by rw [h1])⟩
  | print rA => exact ⟨_, _, rfl, by rw [decode_print _ (hop _ _ _), h1]⟩

/-- Settles O40: the opcode selected the row, so the encoder packs the opcode and the fields it came with. -/
theorem encodeOfDecode : Obligations.EncodeOfDecode := by
  intro w next i h
  rcases decode_cases w next with
    ⟨-, e⟩ | ⟨o, e⟩ | ⟨o, e⟩ | ⟨o, ⟨-, e⟩ | ⟨v, -, e⟩⟩ | ⟨o, e⟩ | ⟨o, e⟩ | ⟨o, e⟩ | ⟨o, e⟩ |
    ⟨o, ⟨-, e⟩ | ⟨v, -, e⟩⟩ | ⟨o, e⟩ | ⟨-, e⟩
  all_goals
    rw [e] at h
    cases h
  case inl => rfl
  all_goals simp only [encode, ← o, encodeFields_decoded, encodeFields_opcode_arg1]

/-- Settles O42: the bits that matter are the fields packed again, so words that agree there have the same fields. -/
theorem ignoredBitsDoNotMatter : Obligations.IgnoredBitsDoNotMatter := by
  refine ⟨fun w w' next h => ?high, fun w w' next h hform => ?arg2, fun w w' next next' h hhalt => ?halt⟩
  case high =>
    rw [← encodeFields_decoded w, ← encodeFields_decoded w'] at h
    obtain ⟨hop, h1, h2⟩ := encodeFields_inj h
    exact decode_congr next hop h1 h2
  case arg2 =>
    rw [← encodeFields_opcode_arg1 w, ← encodeFields_opcode_arg1 w'] at h
    obtain ⟨hop, h1, -⟩ := encodeFields_inj h
    refine decode_congr_arg1 next hop h1 ?_
    rw [← hop, decodeOpcode_toNat]
    exact hform
  case halt =>
    rw [← encodeFields_opcode w, ← encodeFields_opcode w'] at h
    obtain ⟨hop, -, -⟩ := encodeFields_inj h
    have ho : decodeOpcode w = 0 := (decodeOpcode_eq_iff w 0).mpr hhalt
    rw [decode_halt next ho, decode_halt next' (hop.symm.trans ho)]

/-- Settles O43: both units as base-16 numbers. -/
theorem encoderAndDecoderAreInverse : Obligations.EncoderAndDecoderAreInverse := by
  refine ⟨fun op a1 a2 => ?_, encodeFields_decoded⟩
  rw [decodeOpcode_toNat, decodeArg1_toNat, decodeArg2_toNat, encodeUnit_toNat]
  omega

/-- Settles O45: a line that fits is the line of an instruction, in either reading of its wide operand. -/
theorem assemblerEmitsCanonicalWords : Obligations.AssemblerEmitsCanonicalWords := by
  refine ⟨assemble_pattern .halt, fun a n => ?nibbles, fun a v => ?wide, fun a n h => ?misfit2, fun a h => ?misfit1,
    fun a v h => ?misfitWide, fun v h => ?misfitWord⟩
  case nibbles =>
    exact ⟨assemble_pattern (.add a n), assemble_pattern (.load a n), assemble_pattern (.copy a n),
      assemble_pattern (.jmpeq a n), assemble_pattern (.cndpc a), assemble_pattern (.jmp a), assemble_pattern (.print a)⟩
  case wide =>
    have hword : assemble (.word v.toNat) = some [BitVec.ofNat 32 v.toNat] := assemble_of_wellFormed (decide_eq_true v.isLt)
    rw [BitVec.ofNat_toNat, BitVec.setWidth_eq] at hword
    exact ⟨assemble_pattern (.loadw a v), assemble_signed (.loadw a v), assemble_pattern (.jmpeqw a v),
      assemble_signed (.jmpeqw a v), hword⟩
  case misfit2 =>
    have hfit := fitsNibble_and_misfits h
    exact ⟨assemble_eq_none hfit, assemble_eq_none hfit, assemble_eq_none hfit, assemble_eq_none hfit⟩
  case misfit1 =>
    have hfit := fitsNibble_of_le h
    exact ⟨assemble_eq_none hfit, assemble_eq_none hfit, assemble_eq_none hfit⟩
  case misfitWide =>
    have hfit := fitsNibble_fitsWide_misfits h
    exact ⟨assemble_eq_none hfit, assemble_eq_none hfit⟩
  case misfitWord => exact assemble_eq_none (decide_eq_false (Nat.not_lt.mpr h))

/-- Settles O41: LOADW and JMPEQW are the opcodes whose row takes the next word. -/
theorem opcodeAloneGivesTheLength : Obligations.OpcodeAloneGivesTheLength := by
  refine ⟨fun i => ?encoded, fun w next i h => ?decoded, fun w => ?needsNext⟩
  case encoded => cases i <;> rfl
  case decoded =>
    have hop : w.toNat / 256 % 16 = i.opcode := (decodeOpcode_toNat w).symm.trans (decode_ok_fields h).1
    rw [hop]
    exact words_eq_of_opcode i
  case needsNext =>
    rw [decode_needs_next_iff, decodeOpcode_eq_iff, decodeOpcode_eq_iff]
    rfl

/-- Settles O44: each word through its row of R64. -/
theorem specWordsDecode : Obligations.SpecWordsDecode :=
  ⟨decode_cndpc none rfl, decode_loadw 0 rfl, decode_add none rfl, decode_jmpeqw 1000000 rfl, decode_jmp none rfl,
    decode_print none rfl, decode_halt none rfl, decode_load none rfl, decode_copy none rfl, decode_jmpeq none rfl,
    decode_jmp none rfl, decode_halt none rfl, decode_invalid none (by decide)⟩

end Sys2Proof.Machine

/-! The execution engine (spec/40_execution_engine.md): when a step is enabled, which instruction it runs, which fault it takes,
where pc goes next, and that the step is the spec's own listing. -/

namespace Sys2Proof

/-! ### The operands the decoder reads besides a1 (R53, R64, R75) -/

/-- The operand an instruction takes from its a2 field, if its form uses that field (R53). -/
@[simp] def Instr.arg2 : Instr → Option Nibble
  | .add _ n | .load _ n | .jmpeq _ n => some n
  | .copy _ rB => some rB
  | .halt | .loadw _ _ | .cndpc _ | .jmp _ | .jmpeqw _ _ | .print _ => none

/-- The wide immediate of an instruction, if its form has one (R62). -/
@[simp] def Instr.wide : Instr → Option Word
  | .loadw _ v | .jmpeqw _ v => some v
  | .halt | .add _ _ | .load _ _ | .copy _ _ | .cndpc _ | .jmp _ | .jmpeq _ _ | .print _ => none

/-- The decoder takes a2 from its field and the wide immediate from the next word. -/
theorem decode_ok_operands {w : Word} {next : Option Word} {i : Instr} (h : decode w next = .ok i) :
    (∀ r, i.arg2 = some r → decodeArg2 w = r) ∧ ∀ v, i.wide = some v → next = some v := by
  rcases decode_cases w next with
    ⟨-, e⟩ | ⟨-, e⟩ | ⟨-, e⟩ | ⟨-, ⟨-, e⟩ | ⟨v, hn, e⟩⟩ | ⟨-, e⟩ | ⟨-, e⟩ | ⟨-, e⟩ | ⟨-, e⟩ |
    ⟨-, ⟨-, e⟩ | ⟨v, hn, e⟩⟩ | ⟨-, e⟩ | ⟨-, e⟩
  all_goals
    rw [e] at h
    cases h
  all_goals simp [*]

/-- The two register checks of R76, on the fields of the word: a1 where the form uses it as a register, then COPY's a2. -/
theorem wellFormed_eq_false_iff {w : Word} {next : Option Word} {i : Instr} (h : decode w next = .ok i) (n : Nat) :
    i.wellFormed n = false ↔
      ((i.opcode = 1 ∨ i.opcode = 2 ∨ i.opcode = 3 ∨ i.opcode = 4 ∨ i.opcode = 7 ∨ i.opcode = 8 ∨ i.opcode = 9) ∧
          n ≤ (decodeArg1 w).toNat) ∨
        (i.opcode = 4 ∧ n ≤ (decodeArg2 w).toNat) := by
  obtain ⟨-, h1⟩ := decode_ok_fields h
  obtain ⟨h2, -⟩ := decode_ok_operands h
  cases i with
  | halt | cndpc t | jmp t => simp [Instr.wellFormed, Instr.regFields]
  | copy rA rB => simp [Instr.wellFormed, Instr.regFields, h1 rA rfl, h2 rB rfl, imp_iff_not_or]
  | add rA _ | load rA _ | loadw rA _ | jmpeq rA _ | jmpeqw rA _ | print rA =>
    simp [Instr.wellFormed, Instr.regFields, h1 rA rfl]

end Sys2Proof

namespace Sys2Proof.Machine

/-- A register equals a nibble exactly when its signed value is the nibble's number (R92). -/
theorem eq_imm4_iff (a : Word) (n : Nibble) : a = imm4 n ↔ a.toInt = n.toNat := by
  rw [← signedW_imm4]
  exact BitVec.toInt_inj.symm

/-! ### The listing's numbers and the machine's words (R7, R8) -/

namespace Listing

theorem signed_toNat (w : Word) : signed w.toNat = w.toInt := by
  rw [signed, BitVec.toInt_eq_toNat_cond]
  split <;> split <;> omega

theorem bits_eq (v : Int) : bits v = (bitsW v).toNat := (BitVec.toNat_ofInt v).symm

theorem bitsW_toInt (w : Word) : bitsW w.toInt = w := BitVec.ofInt_toInt

theorem ofNat_bits_toInt (w : Word) : BitVec.ofNat 32 (bits w.toInt) = w := by
  rw [bits_eq, bitsW_toInt, BitVec.ofNat_toNat, BitVec.setWidth_eq]

/-- The listing narrows a sum as the adder does (R84). -/
theorem signed_bits_add (a : Word) (n : Nibble) : signed (bits (a.toInt + n.toNat)) = (adder a n).toInt := by
  rw [bits_eq, signed_toNat, adder, zextW_toNat, signedW]

theorem ofNat_opcode (w : Word) : BitVec.ofNat 4 (w.toNat / 256 % 16) = decodeOpcode w := by
  rw [← BitVec.setWidth_eq (decodeOpcode w), ← BitVec.ofNat_toNat, decodeOpcode_toNat]
  rfl

theorem slice_opcode (w : Word) : slice 11 8 w.toNat = (decodeOpcode w).toNat := (decodeOpcode_toNat w).symm

theorem slice_arg1 (w : Word) : slice 7 4 w.toNat = (decodeArg1 w).toNat := (decodeArg1_toNat w).symm

theorem slice_arg2 (w : Word) : slice 3 0 w.toNat = (decodeArg2 w).toNat :=
  (congrArg (· % 16) (Nat.div_one w.toNat)).trans (decodeArg2_toNat w).symm

/-! ### The listing's reads and writes are the machine's -/

theorem x_of_regRead {r : Nibble} {s : State} {a : Word} (h : regRead r s = some a) : x s r.toNat = a.toInt := by
  rw [x, List.getD_eq_getElem?_getD, show s.regs[r.toNat]? = some a from h, Option.getD_some, signed_toNat]

theorem mem_of_memRead {a : Nat} {s : State} {w : Word} (h : memRead a s = some w) : mem s a = w.toNat := by
  rw [mem, List.getD_eq_getElem?_getD, show s.code[a]? = some w from h, Option.getD_some]

/-- Writing a signed value writes its pattern. -/
theorem setX_toInt (s : State) (i : Nat) (v : Word) : setX s i v.toInt = s.regs.set i v := by
  rw [setX, ofNat_bits_toInt]

/-- No case of the listing writes the fault record. -/
theorem perform_fault (op a1 a2 immW : Nat) (s : State) : (perform op a1 a2 immW s).fault = s.fault := by
  simp only [perform, apply_ite State.fault, ite_self]

end Listing

/-! ### The listing's case is the instruction (R79) -/

/-- With its registers in range, a decoded instruction does what the listing's case does for the fields of its words. -/
theorem exec_eq_perform {s : State} {w : Word} {i : Instr} (hd : decode w (memRead (s.pc + 1) s) = .ok i)
    (hwf : i.wellFormed s.nreg = true) :
    exec i s =
      .next (Listing.perform i.opcode (decodeArg1 w).toNat (decodeArg2 w).toNat (Listing.mem s (s.pc + 1)) s) := by
  obtain ⟨-, h1⟩ := decode_ok_fields hd
  obtain ⟨h2, h3⟩ := decode_ok_operands hd
  rcases exec_wellFormed hwf with ⟨rfl, e⟩ | ⟨rA, n, a, rfl, ha, e⟩ | ⟨rA, n, a, rfl, ha, e⟩ | ⟨rA, v, a, rfl, ha, e⟩ |
    ⟨rA, rB, a, b, rfl, ha, hb, e⟩ | ⟨x, rfl, e⟩ | ⟨x, rfl, e⟩ | ⟨rA, n, a, rfl, ha, e⟩ | ⟨rA, v, a, rfl, ha, e⟩ |
    ⟨rA, a, rfl, ha, e⟩
  all_goals refine e.trans (congrArg Host.Outcome.next ?_)
  · -- HALT
    rfl
  · -- ADD: both narrow the same sum
    rw [h1 rA rfl, h2 n rfl]
    simp [Listing.perform, Listing.x_of_regRead ha, Listing.signed_bits_add, Listing.setX_toInt, advance, setPc, regWrite]
  · -- LOAD: the nibble is its own signed value
    have hn : (n.toNat : Int) = (imm4 n).toInt := (signedW_imm4 n).symm
    rw [h1 rA rfl, h2 n rfl]
    simp [Listing.perform, hn, Listing.setX_toInt, advance, setPc, regWrite]
  · -- LOADW
    rw [h1 rA rfl, Listing.mem_of_memRead (h3 v rfl)]
    simp [Listing.perform, Listing.signed_toNat, Listing.setX_toInt, advance, setPc, regWrite]
  · -- COPY
    rw [h1 rA rfl, h2 rB rfl]
    simp [Listing.perform, Listing.x_of_regRead hb, Listing.setX_toInt, advance, setPc, regWrite]
  · -- CNDPC
    rw [h1 x rfl]
    rfl
  · -- JMP
    rw [h1 x rfl]
    rfl
  · -- JMPEQ: integer equality with the nibble is equality of patterns
    rw [h1 rA rfl, h2 n rfl]
    by_cases hc : a = imm4 n <;>
      simp [Listing.perform, Listing.x_of_regRead ha, ← eq_imm4_iff, hc, advance, setPc]
  · -- JMPEQW
    rw [h1 rA rfl, Listing.mem_of_memRead (h3 v rfl)]
    by_cases hc : a = v <;>
      simp [Listing.perform, Listing.x_of_regRead ha, Listing.bits_eq, Listing.bitsW_toInt, BitVec.toNat_inj, hc, advance, setPc]
  · -- PRINT
    rw [h1 rA rfl]
    simp [Listing.perform, Listing.x_of_regRead ha, Listing.ofNat_bits_toInt, advance, setPc, emit]

/-! ### The listing's checks are the fetch and the register check (R72, R74, R75, R76) -/

theorem listingStep_of_fetch_error {s : State} {f : FaultKind × Option Nibble} (h : fetch s = .error f) :
    Listing.step s = raiseFault f.1 f.2 s := by
  rcases fetch_error h with ⟨hpc, rfl⟩ | ⟨w, hw, hcases⟩
  · exact if_pos hpc
  have hpc : ¬ s.code.length ≤ s.pc := Nat.not_le.mpr (memRead_lt hw)
  simp only [Listing.step, hpc, Listing.mem_of_memRead hw, Listing.slice_opcode, if_false]
  rcases hcases with ⟨hop, rfl⟩ | ⟨hop, hlen, rfl⟩
  · rw [if_pos hop, Listing.raise, BitVec.ofNat_toNat, BitVec.setWidth_eq]
    rfl
  · have hlen' : s.code.length ≤ s.pc + 1 := hlen
    rcases hop with hop | hop <;> simp [hop, hlen', Listing.raise, raiseFault]

/-- A wide instruction that was fetched has its next word (R75). -/
theorem pc_succ_lt_of_wide {s : State} {w : Word} {i : Instr} (hd : decode w (memRead (s.pc + 1) s) = .ok i)
    (hop : i.opcode = 3 ∨ i.opcode = 8) : s.pc + 1 < s.codeLen := by
  obtain ⟨v, hv⟩ : ∃ v, i.wide = some v := by cases i <;> simp_all
  exact memRead_lt ((decode_ok_operands hd).2 v hv)

theorem listingStep_of_fetch_ok {s : State} {w : Word} {i : Instr} (hw : memRead s.pc s = some w)
    (hd : decode w (memRead (s.pc + 1) s) = .ok i) :
    Listing.step s =
      if i.wellFormed s.nreg then
        Listing.perform i.opcode (decodeArg1 w).toNat (decodeArg2 w).toNat (Listing.mem s (s.pc + 1)) s
      else raiseFault .registerOutOfRange none s := by
  have hpc : ¬ s.code.length ≤ s.pc := Nat.not_le.mpr (memRead_lt hw)
  have hop : ¬ 10 ≤ i.opcode := by cases i <;> simp
  have hlen : ¬ ((i.opcode = 3 ∨ i.opcode = 8) ∧ s.code.length ≤ s.pc + 1) := fun h =>
    absurd h.2 (Nat.not_le.mpr (pc_succ_lt_of_wide hd h.1))
  have hregs := wellFormed_eq_false_iff hd s.regs.length
  simp only [Listing.step, hpc, Listing.mem_of_memRead hw, Listing.slice_opcode, Listing.slice_arg1, Listing.slice_arg2,
    (decode_ok_fields hd).1, hop, hlen, if_false, ← ite_or, ← hregs, Bool.eq_false_iff, ne_eq, ite_not]
  rfl

/-- Settles O25: a failed fetch, a failed register check and an instruction are each what the listing does. -/
theorem stepIsTheListing : Obligations.StepIsTheListing := by
  intro s hr
  cases hf : fetch s with
  | error f => rw [step_of_fetchFault hr hf, listingStep_of_fetch_error hf]
  | ok i =>
    obtain ⟨w, hw, hd⟩ := fetch_ok hf
    rw [step_of_fetch hr hf, listingStep_of_fetch_ok hw hd]
    cases hwf : i.wellFormed s.nreg with
    | false => exact exec_illFormed hwf
    | true => exact exec_eq_perform hd hwf

/-! ### Which step is taken (R69, R72 to R76) -/

/-- Settles O18: only RUNNING has a next state, and there every fetch and every instruction has one. -/
theorem stepIsEnabledExactlyWhileRunning : Obligations.StepIsEnabledExactlyWhileRunning :=
  ⟨fun _ => ⟨fun ⟨_, h⟩ => (step_next h).1, step_exists_next⟩, fun _ budget h => runLoop_stopped budget h,
    fun n image c => ⟨launch_run n image c, launch_pc n image c⟩⟩

/-- Settles O17: the two words decode, so the fetch gives their instruction. -/
theorem stepRunsTheDecodedInstruction : Obligations.StepRunsTheDecodedInstruction :=
  fun _ _ _ hr hw hd => step_of_fetch hr (fetch_of_decode hw hd)

/-- Settles O19: the fetch fails before it reads a word. -/
theorem pcOutOfRangeFaults : Obligations.PcOutOfRangeFaults :=
  fun _ hr hpc => step_of_fetchFault hr (fetch_outOfRange hpc)

theorem decodeTableWord_eq_some_iff (nbits w : Nat) (i : Instr) :
    decodeTableWord nbits w = some i ↔ decode (tableWords nbits w).1 (some (tableWords nbits w).2) = .ok i := by
  unfold decodeTableWord
  cases decode (tableWords nbits w).1 (some (tableWords nbits w).2) <;> simp

/-- Settles O46: both placed words are read back. -/
theorem placedWordRunsNext : Obligations.PlacedWordRunsNext := by
  intro s nbits w i h
  have hd := (decodeTableWord_eq_some_iff nbits w i).mp h
  exact step_of_fetch rfl (fetch_of_decode (placeWords_at ..) ((congrArg (decode _) (placeWords_next ..)).trans hd))

/-! ### Faults and the next pc (R77, R78, R80) -/

/-- Settles O22: the step is the listing, whose chain of checks is the one stated, and whose case keeps the record. -/
theorem firstFailingCheckDecidesTheFault : Obligations.FirstFailingCheckDecidesTheFault := by
  intro s t h
  obtain rfl : Listing.step s = t := Host.Outcome.next.inj ((stepIsTheListing s (step_next h).1).symm.trans h)
  cases hw : s.code[s.pc]? with
  | none => simp [Listing.step, List.getElem?_eq_none_iff.mp hw, Listing.raise]
  | some w =>
    have hpc : ¬ s.code.length ≤ s.pc := Nat.not_le.mpr (memRead_lt hw)
    have hop : BitVec.ofNat 4 (w.toNat / 256 % 16) = w.extractLsb' 8 4 := Listing.ofNat_opcode w
    simp [Listing.step, Listing.slice, Listing.raise, hpc, Listing.mem_of_memRead hw, hop, Listing.perform_fault,
      apply_ite State.fault]

/-- Settles O23: an instruction with its registers in range does not reach FAULTED, so a check failed and took the fault. -/
theorem faultsArePrecise : Obligations.FaultsArePrecise := by
  intro s t h hrun
  obtain ⟨hr, ⟨f, hf, rfl⟩ | ⟨i, -, -, rfl⟩ | ⟨i, -, hwf, e⟩⟩ := step_next h
  · refine ⟨rfl, f.1, f.2.getD 0, rfl, fun hk => ?_⟩
    rcases fetch_error hf with ⟨-, rfl⟩ | ⟨w, -, ⟨-, rfl⟩ | ⟨-, -, rfl⟩⟩
    · rfl
    · exact absurd rfl hk
    · rfl
  · exact ⟨rfl, _, _, rfl, fun _ => rfl⟩
  · obtain ⟨-, hkeep | ⟨-, hhalt⟩, -, -⟩ := exec_wellFormed_keeps hwf e
    · simp [hkeep, hr] at hrun
    · simp [hhalt] at hrun

/-- Settles O24: the next states of `exec_wellFormed`, row by row. -/
theorem nextPcTable : Obligations.NextPcTable := by
  intro i s t hwf h
  have e := exec_wellFormed (s := s) hwf
  simp only [h, Host.Outcome.next.injEq] at e
  rcases e with ⟨rfl, rfl⟩ | ⟨rA, n, a, rfl, -, rfl⟩ | ⟨rA, n, a, rfl, -, rfl⟩ | ⟨rA, v, a, rfl, -, rfl⟩ |
    ⟨rA, rB, a, b, rfl, -, -, rfl⟩ | ⟨x, rfl, rfl⟩ | ⟨x, rfl, rfl⟩ | ⟨rA, n, a, rfl, ha, rfl⟩ |
    ⟨rA, v, a, rfl, ha, rfl⟩ | ⟨rA, a, rfl, -, rfl⟩
  · rfl
  · rfl
  · rfl
  · rfl
  · rfl
  · rfl
  · rfl
  · simp [show s.regs[rA.toNat]? = some a from ha, apply_ite State.pc, eq_imm4_iff]
  · simp [show s.regs[rA.toNat]? = some a from ha, apply_ite State.pc]
  · rfl

end Sys2Proof.Machine

/-! The system family (spec/41_system.md): HALT ends the run and changes nothing else, PRINT appends one register to the
output or takes RegisterOutOfRange. -/

namespace Sys2Proof

/-- The encoder's word as the number that its three fields spell in base 16 (R54). -/
theorem encodeFields_eq_ofNat (op a1 a2 : Nibble) :
    encodeFields op a1 a2 = BitVec.ofNat 32 (256 * op.toNat + 16 * a1.toNat + a2.toNat) := by
  have := op.isLt
  have := a1.isLt
  have := a2.isLt
  apply BitVec.eq_of_toNat_eq
  rw [encodeFields_toNat, BitVec.toNat_ofNat]
  omega

end Sys2Proof

namespace Sys2Proof.Machine

/-- A used register field that names no register makes the instruction take RegisterOutOfRange and do nothing else (R76). -/
theorem exec_of_regField_outOfRange {i : Instr} {r : Nibble} {s : State} (hr : r ∈ i.regFields) (h : s.nreg ≤ r.toNat) :
    exec i s = .next (raiseFault .registerOutOfRange none s) := by
  refine exec_illFormed (Bool.eq_false_iff.mpr fun hw => ?_)
  exact Nat.not_lt.mpr h ((wellFormed_iff s.nreg i).mp hw r hr)

/-! ### HALT (R82) -/

/-- A word with opcode 0 is fetched as HALT. -/
theorem fetch_halt {s : State} {w : Word} (hw : s.code[s.pc]? = some w) (hop : decodeOpcode w = 0) : fetch s = .ok .halt :=
  fetch_of_decode hw (decode_halt _ hop)

/-- Settles O4: the mask leaves the opcode field, whose row is HALT, and HALTED enables no step. -/
theorem haltStopsTheEngine : Obligations.HaltStopsTheEngine := by
  have hopcode : ∀ w : Word, w &&& 0xF00#32 = 0x000#32 → decodeOpcode w = 0 := fun w => (mask_eq_iff w 0).mp
  refine ⟨rfl, fun w next h => decode_halt next (hopcode w h), exec_halt, fun s w hr hw h => ?_⟩
  exact ⟨step_of_fetch hr (fetch_halt hw (hopcode w h)), step_halted rfl⟩

/-! ### PRINT (R83) -/

theorem exec_print_outOfRange {s : State} {rA : Nibble} (h : s.nreg ≤ rA.toNat) :
    exec (.print rA) s = .next (raiseFault .registerOutOfRange none s) :=
  exec_of_regField_outOfRange (List.mem_singleton_self rA) h

/-- Everything PRINT can do. -/
theorem exec_print_cases {rA : Nibble} {s t : State} (h : exec (.print rA) s = .next t) :
    (∃ a, regRead rA s = some a ∧ t = advance 1 (emit a s)) ∨
      (s.nreg ≤ rA.toNat ∧ t = raiseFault .registerOutOfRange none s) := by
  cases ha : regRead rA s with
  | some a => exact .inl ⟨a, rfl, Host.Outcome.next.inj (h.symm.trans (exec_print ha))⟩
  | none =>
    have hr := (regRead_eq_none_iff rA s).mp ha
    exact .inr ⟨hr, Host.Outcome.next.inj (h.symm.trans (exec_print_outOfRange hr))⟩

/-- Settles O5: the register check passes and the value is appended, or it fails and only the fault is taken. -/
theorem printAppendsTheRegister : Obligations.PrintAppendsTheRegister := by
  refine ⟨fun rA => ?encoding, fun w next h => decode_print next ((mask_eq_iff w 9).mp h), fun s rA a ha => exec_print ha,
    fun s rA a t ha h => ?output, fun s rA hr => exec_print_outOfRange hr⟩
  case encoding => exact congrArg (fun w => [w]) (encodeFields_eq_ofNat 9 rA 0)
  case output =>
    obtain rfl : t = advance 1 (emit a s) := Host.Outcome.next.inj (h.symm.trans (exec_print ha))
    exact outputsSince_of_append (vs := [a]) rfl

/-! ### The frame -/

/-- Settles O16: HALT writes run alone, PRINT the output and pc, and its fault run and the record. -/
theorem systemFrame : Obligations.SystemFrame := by
  refine ⟨fun s t h => ?halt, fun rA s t h => ?print⟩
  case halt =>
    obtain rfl : haltEngine s = t := Host.Outcome.next.inj h
    exact ⟨rfl, fun _ => rfl, rfl, rfl, rfl, rfl, rfl⟩
  case print =>
    obtain ⟨a, ha, rfl⟩ | ⟨hr, rfl⟩ := exec_print_cases h
    · exact ⟨rfl, fun _ => rfl, rfl, rfl, fun _ => ⟨rfl, rfl⟩, fun hge => absurd (regRead_lt ha) (Nat.not_lt.mpr hge)⟩
    · exact ⟨rfl, fun _ => rfl, rfl, rfl, fun hlt => absurd hlt (Nat.not_lt.mpr hr), fun _ => ⟨rfl, rfl⟩⟩

end Sys2Proof.Machine

/-! The arithmetic family (spec/42_arithmetic.md): the adder gives the exact sum or its wrap, and ADD writes it or takes
RegisterOutOfRange. -/

namespace Sys2Proof.Machine

/-! ### The adder (R84, decisions D3 and C3) -/

/-- `signedW_adder` with the signed reading spelled `toInt`. -/
theorem adder_toInt (a : Word) (n : Nibble) : (adder a n).toInt = (a.toInt + n.toNat).bmod (2 ^ 32) := signedW_adder a n

/-- The adder's result is congruent to the exact sum. -/
theorem adder_congr (a : Word) (n : Nibble) : (2 ^ 32 : Int) ∣ (a.toInt + (n.toNat : Int)) - (adder a n).toInt := by
  rw [adder_toInt]
  exact Int.dvd_self_sub_bmod

/-- Settles O47: a nibble is not negative, so the exact sum is never below the 32-bit range and at most one wrap above it. -/
theorem adderUnitWraps : Obligations.AdderUnitWraps := by
  intro a n
  have hlo : -(2 ^ 31) ≤ a.toInt := BitVec.le_toInt a
  have hhi : a.toInt < 2 ^ 31 := BitVec.toInt_lt
  have hn : n.toNat < 16 := n.isLt
  rw [adder_toInt]
  split
  case isTrue hfits => exact Int.bmod_eq_of_le (by omega) (by omega)
  case isFalse hover =>
    rw [← Int.sub_bmod_right]
    exact Int.bmod_eq_of_le (by omega) (by omega)

/-! ### ADD (R85) -/

theorem exec_add_outOfRange {s : State} {rA : Nibble} (n : Nibble) (h : s.nreg ≤ rA.toNat) :
    exec (.add rA n) s = .next (raiseFault .registerOutOfRange none s) :=
  exec_of_regField_outOfRange (List.mem_singleton_self rA) h

/-- Settles O6: the register check passes and the adder's result is written, or it fails and only the fault is taken. -/
theorem addWrapsModuloTwoToThe32 : Obligations.AddWrapsModuloTwoToThe32 := by
  refine ⟨fun rA n => ?encoding, fun w next h => decode_add next ((mask_eq_iff w 1).mp h),
    fun s rA n a ha => ⟨adder a n, adder_congr a n, exec_add n ha⟩, fun s rA n hr => exec_add_outOfRange n hr⟩
  case encoding => exact congrArg (fun w => [w]) (encodeFields_eq_ofNat 1 rA n)

end Sys2Proof.Machine

/-! The register load family (spec/43_register_load.md): LOAD writes the nibble, LOADW the next word and COPY another
register, or a register out of range or a missing next word makes them take a fault and write nothing. -/

namespace Sys2Proof.Machine

/-- The fault of a used register field out of range, read off the next state: the record names it and no register is written. -/
theorem exec_registerFault_writes_none {i : Instr} {r : Nibble} {s : State} (hr : r ∈ i.regFields) (h : s.nreg ≤ r.toNat) :
    ∃ (t : State) (f : FaultRecord), exec i s = .next t ∧ t.run = .faulted ∧ t.fault = some f ∧
      f.kind = .registerOutOfRange ∧ t.regs = s.regs :=
  ⟨_, _, exec_of_regField_outOfRange hr h, rfl, rfl, rfl, rfl⟩

/-- A wide instruction whose next word is past the end of code memory is not fetched (R75). -/
theorem fetch_of_missing_immediate {s : State} {w : Word} (hw : memRead s.pc s = some w)
    (hop : decodeOpcode w = 3 ∨ decodeOpcode w = 8) (hend : s.codeLen ≤ s.pc + 1) :
    fetch s = .error (.addressOutOfRange, none) := by
  have hd : decode w (memRead (s.pc + 1) s) = .error .missingImmediate := by
    rw [(memRead_eq_none_iff (s.pc + 1) s).mpr hend]
    exact decode_missing hop
  exact fetch_of_reject hw hd

/-! ### LOAD (R88) -/

/-- Settles O7: the register check passes and the zero-extended nibble is written, or it fails and only the fault is taken. -/
theorem loadWritesTheNibble : Obligations.LoadWritesTheNibble := by
  refine ⟨fun rA n => ?encoding, fun w next h => decode_load next ((mask_eq_iff w 2).mp h), fun s rA n hlt => ?writes,
    fun s rA n hge => exec_registerFault_writes_none (List.mem_singleton_self rA) hge⟩
  case encoding => exact congrArg (fun w => [w]) (encodeFields_eq_ofNat 2 rA n)
  case writes =>
    obtain ⟨a, ha⟩ := exists_regRead hlt
    exact ⟨imm4 n, signedW_imm4 n, exec_load n ha⟩

/-! ### LOADW (R89) -/

/-- Settles O8: with a next word only the register check is left, without one the fetch fails before it. -/
theorem loadwWritesTheNextWord : Obligations.LoadwWritesTheNextWord := by
  have hopcode : ∀ w : Word, w &&& 0xF00#32 = 0x300#32 → decodeOpcode w = 3 := fun w => (mask_eq_iff w 3).mp
  refine ⟨fun rA v => ?encoding, fun w v h => decode_loadw v (hopcode w h), fun s rA v hlt => ?writes,
    fun s rA v hge => exec_of_regField_outOfRange (List.mem_singleton_self rA) hge, fun s w hr hw h hend => ?missing⟩
  case encoding => exact congrArg (fun w => [w, v]) (encodeFields_eq_ofNat 3 rA 0)
  case writes =>
    obtain ⟨a, ha⟩ := exists_regRead hlt
    exact exec_loadw v ha
  case missing => exact step_of_fetchFault hr (fetch_of_missing_immediate hw (.inl (hopcode w h)) hend)

/-! ### COPY (R90) -/

/-- A register copied to itself keeps its value, so only pc moves. -/
theorem exec_copy_self {s : State} {r : Nibble} {a : Word} (h : regRead r s = some a) :
    exec (.copy r r) s = .next (advance 1 s) := by
  rw [exec_copy h h, regWrite_same h]

/-- Settles O9: both register checks pass and the source is written, or one fails and only the fault is taken. -/
theorem copyMovesOneRegister : Obligations.CopyMovesOneRegister := by
  refine ⟨fun rA rB => ?encoding, fun w next h => decode_copy next ((mask_eq_iff w 4).mp h), fun s rA rB b hlt hb => ?moves,
    fun s rA hlt => ?self, fun s rA rB hge => ?trap⟩
  case encoding => exact congrArg (fun w => [w]) (encodeFields_eq_ofNat 4 rA rB)
  case moves =>
    obtain ⟨a, ha⟩ := exists_regRead hlt
    exact exec_copy ha hb
  case self =>
    obtain ⟨a, ha⟩ := exists_regRead hlt
    exact exec_copy_self ha
  case trap =>
    obtain hA | hB := hge
    · exact exec_registerFault_writes_none (i := .copy rA rB) List.mem_cons_self hA
    · exact exec_registerFault_writes_none (i := .copy rA rB) (List.mem_cons_of_mem rA List.mem_cons_self) hB

end Sys2Proof.Machine

/-! The control transfer family (spec/44_control_transfer.md): CNDPC writes condpc, JMP writes pc, and an equality jump goes to
condpc or to the instruction after it, so what the comparator says is all that two of them need of a register. -/

namespace Sys2Proof.Machine

/-! ### The comparator (R92) -/

/-- Settles O48: equal patterns have equal unsigned values, and against a nibble equal signed values. -/
theorem comparatorComparesPatterns : Obligations.ComparatorComparesPatterns :=
  ⟨fun a b => (comparator_iff a b).trans BitVec.toNat_inj.symm, fun a n => (comparator_iff a (imm4 n)).trans (eq_imm4_iff a n)⟩

/-! ### The frame (R93 to R96) -/

/-- A control transfer with its register in range writes pc alone, or condpc and pc when it is CNDPC. -/
theorem Effect.controlTransfer {i : Instr} {s t : State} (hop : i.opcode ∈ [5, 6, 7, 8]) (h : Effect i s t) :
    (∃ x, i = .cndpc x ∧ t = advance 1 (setCondpc x.toNat s)) ∨ ∃ p, t = setPc p s := by
  cases h with
  | writeCondpc x hi => exact .inl ⟨x, hi, rfl⟩
  | jump p _ _ => exact .inr ⟨p, rfl⟩
  | halt hi => simp [hi] at hop
  | print rA v hi _ => simp [hi] at hop
  | writeReg rA v k hop' _ _ =>
    simp only [List.mem_cons, List.not_mem_nil, or_false] at hop hop'
    omega

/-- Settles O15: either the register check fails and a fault is taken, or pc is written, by CNDPC after condpc. -/
theorem controlTransferFrame : Obligations.ControlTransferFrame := by
  intro i s t hi h
  have hop : i.opcode ∈ [5, 6, 7, 8] := by
    rcases hi with ⟨x, rfl⟩ | ⟨x, rfl⟩ | ⟨rA, n, rfl⟩ | ⟨rA, v, rfl⟩ <;> simp
  cases hw : i.wellFormed s.nreg with
  | false =>
    obtain rfl : raiseFault .registerOutOfRange none s = t := Host.Outcome.next.inj ((exec_illFormed hw).symm.trans h)
    have hfalse : i.wellFormed s.regs.length ≠ true := ne_true_of_eq_false hw
    exact ⟨rfl, fun _ => rfl, rfl, rfl, fun _ => rfl, fun ht => absurd ht hfalse, fun _ => rfl⟩
  | true =>
    have htrue : i.wellFormed s.regs.length ≠ false := ne_false_of_eq_true hw
    obtain ⟨x, hx, rfl⟩ | ⟨p, rfl⟩ := (exec_effect hw h).controlTransfer hop
    · exact ⟨rfl, fun _ => rfl, rfl, rfl, fun hne => absurd hx (hne x), fun _ => ⟨rfl, rfl⟩, fun hf => absurd hf htrue⟩
    · exact ⟨rfl, fun _ => rfl, rfl, rfl, fun _ => rfl, fun _ => ⟨rfl, rfl⟩, fun hf => absurd hf htrue⟩

/-! ### CNDPC and JMP (R93, R94) -/

/-- Settles O10: CNDPC checks nothing, so its two writes are its next state. -/
theorem cndpcSetsTheBranchTarget : Obligations.CndpcSetsTheBranchTarget := by
  refine ⟨fun t => ?encoding, fun w next h => decode_cndpc next ((mask_eq_iff w 5).mp h), fun s t => exec_cndpc t s⟩
  case encoding => exact congrArg (fun w => [w]) (encodeFields_eq_ofNat 5 t 0)

/-- Settles O11: JMP checks nothing, and the next fetch finds no word at a target past the end. -/
theorem jmpSetsThePc : Obligations.JmpSetsThePc := by
  refine ⟨fun t => ?encoding, fun w next h => decode_jmp next ((mask_eq_iff w 6).mp h), fun s t => exec_jmp t s,
    fun s t hr hend => pcOutOfRangeFaults { s with pc := t.toNat } hr hend⟩
  case encoding => exact congrArg (fun w => [w]) (encodeFields_eq_ofNat 6 t 0)

/-! ### JMPEQ and JMPEQW (R95, R96) -/

/-- Both outcomes of an equality jump write pc alone. -/
theorem equalityJump_eq_setPc (c : Prop) [Decidable c] (k : Nat) (s : State) :
    (if c then setPc s.condpc s else advance k s) = setPc (if c then s.condpc else s.pc + k) s :=
  (apply_ite (setPc · s) c s.condpc (s.pc + k)).symm

/-- JMPEQ as a choice of the next pc by the signed value of its register. -/
theorem exec_jmpeq_setPc {s : State} {rA : Nibble} {a : Word} (n : Nibble) (h : regRead rA s = some a) :
    exec (.jmpeq rA n) s = .next (setPc (if a.toInt = (n.toNat : Int) then s.condpc else s.pc + 1) s) := by
  simp only [exec_jmpeq n h, equalityJump_eq_setPc, eq_imm4_iff]

/-- Settles O12: the register check passes and the signed values choose the next pc, or it fails and only the fault is taken. -/
theorem jmpeqComparesWithTheNibble : Obligations.JmpeqComparesWithTheNibble := by
  refine ⟨fun rA n => ?encoding, fun w next h => decode_jmpeq next ((mask_eq_iff w 7).mp h),
    fun s rA n a ha => exec_jmpeq_setPc n ha, fun s rA n a ha hneg => ?negative, fun s rA n a ha heq hself => ?self,
    fun s hr hend => ⟨_, pcOutOfRangeFaults { s with pc := s.condpc } hr hend, rfl, rfl⟩,
    fun s rA n hge => exec_registerFault_writes_none (List.mem_singleton_self rA) hge⟩
  case encoding => exact congrArg (fun w => [w]) (encodeFields_eq_ofNat 7 rA n)
  case negative =>
    have hne : a.toInt ≠ (n.toNat : Int) := by omega
    exact (exec_jmpeq_setPc n ha).trans (by rw [if_neg hne]; rfl)
  case self =>
    exact (exec_jmpeq_setPc n ha).trans (by rw [if_pos heq, hself]; rfl)

/-- Settles O13: with a next word the patterns choose the next pc once the register check has passed, without one the fetch
fails before it. -/
theorem jmpeqwComparesWithTheNextWord : Obligations.JmpeqwComparesWithTheNextWord := by
  have hopcode : ∀ w : Word, w &&& 0xF00#32 = 0x800#32 → decodeOpcode w = 8 := fun w => (mask_eq_iff w 8).mp
  refine ⟨fun rA v => ?encoding, fun w v h => decode_jmpeqw v (hopcode w h), fun s rA v a ha => ?jumps,
    fun s rA v hge => exec_of_regField_outOfRange (List.mem_singleton_self rA) hge, fun s w hr hw h hend => ?missing⟩
  case encoding => exact congrArg (fun w => [w, v]) (encodeFields_eq_ofNat 8 rA 0)
  case jumps =>
    rw [exec_jmpeqw v ha, equalityJump_eq_setPc]
    rfl
  case missing => exact step_of_fetchFault hr (fetch_of_missing_immediate hw (.inr (hopcode w h)) hend)

end Sys2Proof.Machine

/-! The host's interface and the faults (spec/60_exceptions.md): a loop's moves are the steps of the run, in order and with
their outputs; every request keeps the block's invariant; what an output line shows; the fault of an undefined opcode. -/

namespace Sys2Proof.Machine

/-! ### The run loop as iterated steps (R71, R115) -/

/-- A state has a next state or its run has ended (R69). -/
theorem step_next_or_stopped (s : State) : (∃ t, step s = .next t) ∨ s.run ≠ .running :=
  or_iff_not_imp_right.mpr fun h => step_exists_next (not_not.mp h)

/-- A run resumes where it stopped. -/
theorem runLoop_add (a b : Nat) (s : State) : runLoop (a + b) s = runLoop b (runLoop a s) := by
  induction a generalizing s with
  | zero => rw [Nat.zero_add, runLoop_zero]
  | succ a ih =>
    obtain ⟨t, ht⟩ | hr := step_next_or_stopped s
    · rw [Nat.succ_add, runLoop_succ_next _ ht, runLoop_succ_next _ ht, ih]
    · rw [runLoop_stopped _ hr, runLoop_stopped _ hr, runLoop_stopped _ hr]

theorem stepsTaken_le (budget : Nat) (s : State) : stepsTaken budget s ≤ budget := by
  induction budget generalizing s with
  | zero => exact Nat.le_refl 0
  | succ n ih =>
    obtain ⟨t, ht⟩ | hr := step_next_or_stopped s
    · rw [stepsTaken_succ_next n ht]
      exact Nat.succ_le_succ (ih t)
    · rw [stepsTaken_stopped _ hr]
      exact Nat.zero_le _

/-- The steps a budget gives make its whole run. -/
theorem runLoop_stepsTaken (budget : Nat) (s : State) : runLoop (stepsTaken budget s) s = runLoop budget s := by
  induction budget generalizing s with
  | zero => rfl
  | succ n ih =>
    obtain ⟨t, ht⟩ | hr := step_next_or_stopped s
    · rw [stepsTaken_succ_next n ht, runLoop_succ_next _ ht, runLoop_succ_next _ ht, ih]
    · rw [runLoop_stopped _ hr, runLoop_stopped _ hr]

/-- A budget is left over only when the run has ended. -/
theorem runLoop_run_of_stepsTaken_lt {budget : Nat} {s : State} (h : stepsTaken budget s < budget) :
    (runLoop budget s).run ≠ .running := by
  induction budget generalizing s with
  | zero => exact absurd h (Nat.not_lt_zero _)
  | succ n ih =>
    obtain ⟨t, ht⟩ | hr := step_next_or_stopped s
    · rw [stepsTaken_succ_next n ht] at h
      rw [runLoop_succ_next n ht]
      exact ih (Nat.lt_of_succ_lt_succ h)
    · rwa [runLoop_stopped _ hr]

/-- Settles O37; the last clause is the contrapositive of the one before it. -/
theorem budgetedRunsResume : Obligations.BudgetedRunsResume :=
  ⟨runLoop_add, stepsTaken_le, fun _ _ => runLoop_run_of_stepsTaken_lt, fun budget s hr =>
    (stepsTaken_le budget s).eq_of_not_lt fun hlt => runLoop_run_of_stepsTaken_lt hlt hr⟩

/-! ### The moves of a loop, and what the host receives (R34, R114) -/

theorem ticks_succ_last (n : Nat) (b : Block) : Block.ticks (n + 1) b = (Block.ticks n b).tick.1 := by
  induction n generalizing b with
  | zero => rfl
  | succ n ih => rw [ticks_succ, ih, ticks_succ]

@[simp] theorem outputsSince_self (s : State) : outputsSince s s = [] := outputsSince_of_eq rfl

theorem outputsSince_trans {s t u : State} (hst : s.out <+: t.out) (htu : t.out <+: u.out) :
    outputsSince s u = outputsSince s t ++ outputsSince t u := by
  obtain ⟨vs, hvs⟩ := hst
  obtain ⟨ws, hws⟩ := htu
  have hsu : u.out = s.out ++ (vs ++ ws) := by rw [← List.append_assoc, hvs, hws]
  rw [outputsSince_of_append hsu, outputsSince_of_append hvs.symm, outputsSince_of_append hws.symm, List.map_append]

/-- The event of a move holds exactly the values by which the output grew. -/
theorem tick_outputs (b : Block) :
    b.state.out <+: b.tick.1.state.out ∧ b.tick.2.printed = outputsSince b.state b.tick.1.state := by
  rcases tick_cases b with ⟨-, e⟩ | ⟨-, t, rest, ht, e⟩ | ⟨-, e⟩
  · rw [e]
    exact ⟨List.prefix_rfl, (outputsSince_self _).symm⟩
  · rw [e]
    exact ⟨step_out_extends ht, rfl⟩
  · rw [e]
    exact ⟨List.prefix_rfl, (outputsSince_self _).symm⟩

theorem ticks_out_extends (n : Nat) (b : Block) : b.state.out <+: (Block.ticks n b).state.out := by
  induction n generalizing b with
  | zero => exact List.prefix_rfl
  | succ n ih => exact (tick_outputs b).1.trans (ih b.tick.1)

/-- Over any number of moves of any loop, the host receives what the output grew by. -/
theorem received_eq_outputsSince (n : Nat) (b : Block) :
    Block.received n b = outputsSince b.state (Block.ticks n b).state := by
  induction n generalizing b with
  | zero => exact (outputsSince_self _).symm
  | succ n ih =>
    obtain ⟨hext, hprinted⟩ := tick_outputs b
    rw [received_succ, hprinted, ih, ticks_succ, outputsSince_trans hext (ticks_out_extends n b.tick.1)]

/-! ### A loop with a budget (R115) -/

theorem runFor_accepted {b : Block} (budget : Nat) (h : b.runRefusal = none) :
    b.runFor budget =
      ({ b with state := runLoop budget b.state, phase := if stepsTaken budget b.state = 0 then b.phase else .started },
        none) := by
  simp [Block.runFor, h]

/-- Up to the steps its budget gives, each move of a loop is one step and uses up one of the budget. -/
theorem ticks_budgeted {m n : Nat} {b : Block} (hl : b.loop = .budgeted n) (hm : m ≤ stepsTaken n b.state) :
    Block.ticks m b =
      { b with state := runLoop m b.state, phase := if m = 0 then b.phase else .started, loop := .budgeted (n - m) } := by
  induction m generalizing n b with
  | zero => simp [← hl]
  | succ m ih =>
    obtain ⟨left, rfl⟩ : ∃ left, n = left + 1 := Nat.exists_eq_succ_of_ne_zero fun h => by simp [h, stepsTaken] at hm
    have hr : b.state.run = .running := by_contra fun h => by simp [stepsTaken_stopped _ h] at hm
    obtain ⟨t, ht⟩ := step_exists_next hr
    rw [stepsTaken_succ_next left ht] at hm
    have htick := (tick_budgeted hl).trans (loopStep_next _ ht)
    rw [ticks_succ, htick, ih rfl (Nat.le_of_succ_le_succ hm), runLoop_succ_next m ht]
    simp

/-- After the steps its budget gives, a loop returns: the budget is used up or the run has ended. -/
theorem tick_after_budget {n : Nat} {b : Block} (hl : b.loop = .budgeted n) :
    (Block.ticks (stepsTaken n b.state) b).tick =
      ({ b with state := runLoop n b.state, phase := if stepsTaken n b.state = 0 then b.phase else .started, loop := .idle },
        .returned (statusWord (runLoop n b.state))) := by
  have hreturns : (Block.ticks (stepsTaken n b.state) b).tick = (Block.ticks (stepsTaken n b.state) b).loopReturn := by
    rw [ticks_budgeted hl (Nat.le_refl _), runLoop_stepsTaken]
    obtain heq | hlt := (stepsTaken_le n b.state).eq_or_lt
    · exact tick_budget_spent (by rw [heq, Nat.sub_self])
    · obtain ⟨left, hleft⟩ := Nat.exists_eq_add_of_lt hlt
      have hloop : n - stepsTaken n b.state = left + 1 := by omega
      rw [hloop, tick_budgeted rfl]
      exact loopStep_stopped _ (runLoop_run_of_stepsTaken_lt hlt)
  rw [hreturns, ticks_budgeted hl (Nat.le_refl _), runLoop_stepsTaken]
  rfl

/-- Settles O55: up to the steps taken each move is a step, and the next move returns with the block of the whole run. -/
theorem budgetedRunRequestReturns : Obligations.BudgetedRunRequestReturns := by
  intro b budget hp hl
  have hnone : b.runRefusal = none := (runRefusal_eq_none_iff b).mpr ⟨hp, hl⟩
  have hstart : Block.loop { b with loop := Loop.start (some budget) } = .budgeted budget := rfl
  have hreturn := tick_after_budget hstart
  refine ⟨_, request_run_accepted (some budget) hnone, fun m hm => ?moves, ?returns, ?whole, ?received⟩
  case moves =>
    rw [ticks_budgeted hstart hm]
    exact ⟨Loop.noConfusion, rfl⟩
  case returns => rw [hreturn, hl]
  case whole => rw [ticks_succ_last, hreturn, runFor_accepted budget hnone, hl]
  case received => rw [received_eq_outputsSince, ticks_succ_last, hreturn]

/-! ### A loop without a budget (R71, R127) -/

/-- A loop without a budget is in progress, or has returned because the run has ended. -/
def Block.FollowsRun (b : Block) : Prop := b.loop = .unbudgeted ∨ b.loop = .idle ∧ b.state.run ≠ .running

theorem tick_followsRun {b : Block} (h : b.FollowsRun) :
    b.tick.1.FollowsRun ∧ b.tick.1.state = runLoop 1 b.state := by
  obtain hl | ⟨hl, hr⟩ := h
  · obtain ⟨t, ht⟩ | hr := step_next_or_stopped b.state
    · rw [tick_unbudgeted hl, loopStep_next _ ht, runLoop_succ_next 0 ht]
      exact ⟨.inl rfl, rfl⟩
    · rw [tick_unbudgeted hl, loopStep_stopped _ hr, runLoop_stopped _ hr]
      exact ⟨.inr ⟨rfl, hr⟩, rfl⟩
  · rw [tick_idle hl, runLoop_stopped _ hr]
    exact ⟨.inr ⟨hl, hr⟩, rfl⟩

theorem ticks_followsRun (n : Nat) {b : Block} (h : b.FollowsRun) :
    (Block.ticks n b).FollowsRun ∧ (Block.ticks n b).state = runLoop n b.state := by
  induction n with
  | zero => exact ⟨h, rfl⟩
  | succ n ih =>
    obtain ⟨hn, hstate⟩ := ih
    obtain ⟨hsucc, hstep⟩ := tick_followsRun hn
    rw [ticks_succ_last]
    exact ⟨hsucc, by rw [hstep, hstate, runLoop_add]⟩

/-- A loop that has returned has left the end state of the run. -/
theorem runEndsIn_of_idle {n : Nat} {b : Block} (h : b.FollowsRun) (hn : (Block.ticks n b).loop = .idle) :
    RunEndsIn b.state (Block.ticks n b).state := by
  obtain ⟨hl | ⟨-, hr⟩, hstate⟩ := ticks_followsRun n h
  · simp [hn] at hl
  · exact ⟨n, hstate.symm, hr⟩

/-- Once the run has ended, the next move leaves no loop. -/
theorem tick_loop_of_ended {b : Block} (h : b.FollowsRun) (hr : b.state.run ≠ .running) : b.tick.1.loop = .idle := by
  obtain hl | ⟨hl, -⟩ := h
  · rw [tick_unbudgeted hl, loopStep_stopped _ hr, loopReturn_loop]
  · rw [tick_idle hl, hl]

/-- The loop returns only when the run has ended, with the status of the end state. -/
theorem returned_of_followsRun {b : Block} {w : StatusWord} (h : b.FollowsRun) (hw : b.tick.2 = .returned w) :
    w = statusWord b.state ∧ b.state.run ≠ .running := by
  obtain hl | ⟨hl, hr⟩ := h
  · obtain ⟨t, ht⟩ | hr := step_next_or_stopped b.state
    · rw [tick_unbudgeted hl, loopStep_next _ ht] at hw
      cases hw
    · rw [tick_unbudgeted hl, loopStep_stopped _ hr] at hw
      exact ⟨(LoopEvent.returned.inj hw).symm, hr⟩
  · rw [tick_idle hl] at hw
    cases hw

/-- Settles O56: the loop follows the run move by move, and the move after the last step returns. -/
theorem unbudgetedRunRequestReturnsExactlyAtTheEnd : Obligations.UnbudgetedRunRequestReturnsExactlyAtTheEnd := by
  intro b hp hl
  have hstart : Block.FollowsRun { b with loop := Loop.start none } := .inl rfl
  have hends := fun n => runEndsIn_of_idle (n := n) hstart
  refine ⟨_, request_run_accepted none ((runRefusal_eq_none_iff b).mpr ⟨hp, hl⟩), fun n => ⟨?state, ?received⟩,
    ⟨fun ⟨_, hn⟩ => ⟨_, hends _ hn⟩, ?stops⟩, hends, fun n w hw => ?returned⟩
  case state => exact (ticks_followsRun n hstart).2
  case received => rw [received_eq_outputsSince, (ticks_followsRun n hstart).2]
  case stops =>
    rintro ⟨t, n, rfl, hr⟩
    obtain ⟨hn, hstate⟩ := ticks_followsRun n hstart
    refine ⟨n + 1, ?_⟩
    rw [ticks_succ_last]
    exact tick_loop_of_ended hn (by rwa [hstate])
  case returned =>
    obtain ⟨hn, hstate⟩ := ticks_followsRun n hstart
    rw [← hstate]
    exact returned_of_followsRun hn hw

/-! ### The block's invariant (R33, R38, R118) -/

theorem load_keeps_blockInv (image : List Nat) {b : Block} (h : Block.Inv b) : Block.Inv (b.load image).1 := by
  obtain ⟨hwf, hsizes, hstop, hlaunch, hloop⟩ := h
  rcases load_cases image b with ⟨-, e⟩ | ⟨hp, hl, ⟨r, -, e⟩ | ⟨himage, e⟩⟩
  · rw [e]
    exact ⟨hwf, hsizes, hstop, hlaunch, hloop⟩
  · rw [e]
    exact ⟨hwf, hsizes, hstop, fun _ => hlaunch hp, fun hne => absurd hl hne⟩
  · rw [e, hlaunch hp, hl]
    exact launch_blockInv hsizes (imageProblem_none_wf himage).1 b.state.condpc .ready

theorem reset_keeps_blockInv (c : Nat) {b : Block} (h : Block.Inv b) : Block.Inv (b.reset c) := by
  obtain ⟨hwf, hsizes, -, -, -⟩ := h
  exact launch_blockInv hsizes hwf c _

theorem runRequest_keeps_blockInv (budget : Option Nat) {b : Block} (h : Block.Inv b) :
    Block.Inv (b.request (.run budget)).1 := by
  cases hr : b.runRefusal with
  | none =>
    rw [request_run_accepted budget hr]
    obtain ⟨hwf, hsizes, hstop, hlaunch, -⟩ := h
    exact ⟨hwf, hsizes, hstop, hlaunch, fun _ => ((runRefusal_eq_none_iff b).mp hr).1⟩
  | some r => rwa [request_run_refused budget hr]

theorem tick_keeps_blockInv {b : Block} (h : Block.Inv b) : Block.Inv b.tick.1 := by
  obtain ⟨hwf, hsizes, hstop, hlaunch, hloop⟩ := h
  rcases tick_cases b with ⟨-, e⟩ | ⟨-, t, rest, ht, e⟩ | ⟨-, e⟩
  · rw [e]
    exact ⟨hwf, hsizes, hstop, hlaunch, hloop⟩
  · obtain ⟨hcode, hnreg⟩ := step_keeps_sizes ht
    rw [e]
    exact ⟨by rwa [hcode], by rwa [State.SizesOk, hnreg], step_keeps_stopTrue hstop ht, fun hne => absurd rfl hne,
      fun _ => LoadPhase.noConfusion⟩
  · rw [e]
    exact ⟨hwf, hsizes, hstop, hlaunch, fun hne => absurd rfl hne⟩

/-- Settles O52, request by request. -/
theorem hostRequestsKeepTheBlockInv : Obligations.HostRequestsKeepTheBlockInv := by
  refine fun b h => ⟨fun q => ?request, tick_keeps_blockInv h⟩
  cases q with
  | load image => exact load_keeps_blockInv image h
  | reset c => exact reset_keeps_blockInv c h
  | run budget => exact runRequest_keeps_blockInv budget h
  | readStatus => exact h
  | inspect => exact h

/-! ### Output lines (R116) -/

/-- Only zero is written with a leading zero. -/
theorem eq_zero_of_head_toDigits {n : Nat} (h : (Nat.toDigits 10 n).head? = some '0') : n = 0 := by
  induction n using Nat.base_induction 10 (by decide) with
  | single m hm => simpa [Nat.toDigits_of_lt_base hm] using h
  | digit m k hk hm ih =>
    rw [← Nat.toDigits_append_toDigits (by decide) hm hk, List.head?_append_of_ne_nil _ Nat.toDigits_ne_nil] at h
    exact absurd (ih h) hm.ne'

/-- Settles O54: the digits are the decimal digits of the magnitude. -/
theorem renderedLineSpellsTheValue : Obligations.RenderedLineSpellsTheValue := by
  intro v
  refine ⟨Nat.toDigits 10 v.toInt.natAbs, rfl, Nat.toDigits_ne_nil,
    fun d hd => Nat.isDigit_of_mem_toDigits (by decide) (by decide) hd, fun h => ?noLeadingZero, ?spells⟩
  case noLeadingZero => rw [eq_zero_of_head_toDigits h, Nat.toDigits_zero]
  case spells => exact Nat.ofDigitChars_ten_toDigits

/-! ### An undefined opcode (R98) -/

/-- Settles O20: the decoder rejects the word whatever its successor, so the fetch fails and the step takes its fault. -/
theorem undefinedOpcodeFaults : Obligations.UndefinedOpcodeFaults := by
  intro s w hr hw hop
  have hop' : 10 ≤ (decodeOpcode w).toNat := by rwa [decodeOpcode_toNat]
  exact ⟨_, step_of_fetchFault hr (fetch_of_reject hw (decode_invalid _ hop')), rfl, rfl, rfl⟩

end Sys2Proof.Machine

/-! Reset and hazards (spec/70_reset_and_hazards.md): where the first step fetches, how far a run depends on the launch value
of condpc, that a CNDPC is seen by the next step, and the two ways a run can go: to one end state, or on forever. -/

namespace Sys2Proof.Machine

/-! ### The first step (R119) -/

/-- Settles O3: index 0 holds the image's first word, whose successor is the head of the rest, or it is past the end. -/
theorem firstStepFetchesIndexZero : Obligations.FirstStepFetchesIndexZero := by
  refine ⟨fun n c w rest i hd => ?first, fun n c => pcOutOfRangeFaults (State.launch n [] c) rfl (Nat.le_refl 0)⟩
  case first =>
    rw [List.head?_eq_getElem?] at hd
    exact stepRunsTheDecodedInstruction (State.launch n (w :: rest) c) w i rfl rfl hd

/-! ### The launch value of condpc (R120, R121) -/

/-- A register check does not look at condpc, so a change of condpc passes through it where it passes through what follows. -/
theorem withReg_setCondpc {r : Nibble} {s : State} {c : Nat} {k k' : Word → State}
    (hk : ∀ v, regRead r s = some v → k' v = setCondpc c (k v)) :
    withReg r (setCondpc c s) k' = setCondpc c (withReg r s k) := by
  obtain ⟨v, hv, e⟩ | ⟨hr, e⟩ := withReg_cases r s k
  · rw [e, ← hk v hv]
    exact withReg_of_some (s := setCondpc c s) hv k'
  · rw [e]
    exact withReg_of_none (s := setCondpc c s) hr k'

/-- An equality jump that is not taken goes on to the next instruction, whatever condpc holds. -/
theorem untakenJump_setCondpc {a b : Word} (h : a ≠ b) (c n : Nat) (s : State) :
    (if comparator a b then setPc (setCondpc c s).condpc (setCondpc c s) else advance n (setCondpc c s)) =
      setCondpc c (if comparator a b then setPc s.condpc s else advance n s) := by
  have hne : ¬ comparator a b = true := mt (comparator_iff a b).mp h
  rw [if_neg hne, if_neg hne]
  rfl

/-- Only CNDPC and a taken equality jump tell one value of condpc from another. -/
theorem exec_setCondpc {i : Instr} {s : State} (c : Nat) (hi : ∀ x, i ≠ .cndpc x) (hj : takesEqualityJump i s = false) :
    ∃ t, exec i s = .next t ∧ exec i (setCondpc c s) = .next (setCondpc c t) := by
  cases i with
  | halt => exact ⟨_, rfl, rfl⟩
  | add rA n => exact ⟨_, rfl, congrArg Host.Outcome.next (withReg_setCondpc fun _ _ => rfl)⟩
  | load rA n => exact ⟨_, rfl, congrArg Host.Outcome.next (withReg_setCondpc fun _ _ => rfl)⟩
  | loadw rA v => exact ⟨_, rfl, congrArg Host.Outcome.next (withReg_setCondpc fun _ _ => rfl)⟩
  | copy rA rB => exact ⟨_, rfl, congrArg Host.Outcome.next (withReg_setCondpc fun _ _ => withReg_setCondpc fun _ _ => rfl)⟩
  | cndpc x => exact absurd rfl (hi x)
  | jmp t => exact ⟨_, rfl, rfl⟩
  | jmpeq rA n =>
    have hne : regRead rA s ≠ some (imm4 n) := of_decide_eq_false hj
    refine ⟨_, rfl, congrArg Host.Outcome.next (withReg_setCondpc fun a ha => untakenJump_setCondpc ?_ c 1 s)⟩
    exact fun e => hne (e ▸ ha)
  | jmpeqw rA v =>
    have hne : regRead rA s ≠ some v := of_decide_eq_false hj
    refine ⟨_, rfl, congrArg Host.Outcome.next (withReg_setCondpc fun a ha => untakenJump_setCondpc ?_ c 2 s)⟩
    exact fun e => hne (e ▸ ha)
  | print rA => exact ⟨_, rfl, congrArg Host.Outcome.next (withReg_setCondpc fun _ _ => rfl)⟩

theorem usesLaunchCondpc_stopped (b : Nat) {s : State} (h : s.run ≠ .running) : usesLaunchCondpc b s = false := by
  cases b with
  | zero => rfl
  | succ b =>
    cases hr : s.run with
    | running => exact absurd hr h
    | halted => simp only [usesLaunchCondpc, hr]
    | faulted => simp only [usesLaunchCondpc, hr]

/-- A run whose first instruction is not CNDPC uses the launch value in that instruction or after it. -/
theorem usesLaunchCondpc_succ (b : Nat) {i : Instr} {s t : State} (hr : s.run = .running) (hf : fetch s = .ok i)
    (hi : ∀ x, i ≠ .cndpc x) (ht : exec i s = .next t) :
    usesLaunchCondpc (b + 1) s = (takesEqualityJump i s || usesLaunchCondpc b t) := by
  cases i with
  | cndpc x => exact absurd rfl (hi x)
  | _ => simp only [usesLaunchCondpc, hr, hf, ht]

/-- One step of a run that does not use the launch value: it erases another condpc, or keeps it and still does not use it. -/
theorem step_setCondpc {b : Nat} {s t : State} (c : Nat) (hu : usesLaunchCondpc (b + 1) s = false) (h : step s = .next t) :
    step (setCondpc c s) = .next t ∨ step (setCondpc c s) = .next (setCondpc c t) ∧ usesLaunchCondpc b t = false := by
  have hr : s.run = .running := (step_next h).1
  have hfetch : fetch (setCondpc c s) = fetch s := fetch_congr rfl rfl
  cases hf : fetch s with
  | error f =>
    obtain rfl : raiseFault f.1 f.2 s = t := Host.Outcome.next.inj ((step_of_fetchFault hr hf).symm.trans h)
    exact .inr ⟨step_of_fetchFault hr (hfetch.trans hf), usesLaunchCondpc_stopped b RunState.noConfusion⟩
  | ok i =>
    have hs : step (setCondpc c s) = exec i (setCondpc c s) := step_of_fetch hr (hfetch.trans hf)
    rw [step_of_fetch hr hf] at h
    by_cases hi : ∃ x, i = .cndpc x
    · obtain ⟨x, rfl⟩ := hi
      exact .inl (hs.trans h)
    · have hne : ∀ x, i ≠ .cndpc x := not_exists.mp hi
      rw [usesLaunchCondpc_succ b hr hf hne h, Bool.or_eq_false_iff] at hu
      obtain ⟨hj, hrest⟩ := hu
      obtain ⟨t', ht', e⟩ := exec_setCondpc c hne hj
      obtain rfl : t' = t := Host.Outcome.next.inj (ht'.symm.trans h)
      exact .inr ⟨hs.trans e, hrest⟩

/-- Settles O34, by induction over the run: the two runs agree but for condpc until a CNDPC makes them one. -/
theorem launchCondpcMattersOnlyToAnEarlyJump : Obligations.LaunchCondpcMattersOnlyToAnEarlyJump := by
  intro budget
  induction budget with
  | zero => exact fun _ _ _ => rfl
  | succ b ih =>
    intro s c hu
    change SameButCondpc _ (runLoop (b + 1) (setCondpc c s))
    obtain ⟨t, ht⟩ | hr := step_next_or_stopped s
    · rw [runLoop_succ_next b ht]
      obtain e | ⟨e, hrest⟩ := step_setCondpc c hu ht
      · rw [runLoop_succ_next b e]
        rfl
      · rw [runLoop_succ_next b e]
        exact ih t c hrest
    · rw [runLoop_stopped _ hr, runLoop_stopped (s := setCondpc c s) _ hr]
      rfl

/-! ### A CNDPC and the jump after it (R123) -/

/-- A word's a1 field reads the register with its number. -/
theorem regRead_decodeArg1 (w : Word) (s : State) : regRead (decodeArg1 w) s = s.regs[w.toNat / 16 % 16]? :=
  congrArg (s.regs[·]?) (decodeArg1_toNat w)

/-- A taken equality jump sets pc to condpc and changes nothing else. -/
theorem exec_takenJump {i : Instr} {s : State} (h : takesEqualityJump i s = true) : exec i s = .next (setPc s.condpc s) := by
  cases i with
  | jmpeq rA n => rw [exec_jmpeq n (of_decide_eq_true h), if_pos rfl]
  | jmpeqw rA v => rw [exec_jmpeqw v (of_decide_eq_true h), if_pos rfl]
  | _ => cases h

/-- A word with opcode 7 whose register holds its a2 field is a taken JMPEQ. -/
theorem fetch_takenJmpeq {s : State} {w : Word} (hw : s.code[s.pc]? = some w) (hop : w.toNat / 256 % 16 = 7)
    (hreg : s.regs[w.toNat / 16 % 16]?.map BitVec.toNat = some (w.toNat % 16)) :
    ∃ i, fetch s = .ok i ∧ takesEqualityJump i s = true := by
  refine ⟨_, fetch_of_decode hw (decode_jmpeq _ ((decodeOpcode_eq_iff w 7).mpr hop)), decide_eq_true ?_⟩
  obtain ⟨a, ha, hval⟩ := Option.map_eq_some_iff.mp hreg
  have himm : a = imm4 (decodeArg2 w) := BitVec.eq_of_toNat_eq (by rw [hval, imm4_toNat, decodeArg2_toNat])
  rw [regRead_decodeArg1, ha, himm]

/-- A word with opcode 8 whose register holds the next word is a taken JMPEQW. -/
theorem fetch_takenJmpeqw {s : State} {w v : Word} (hw : s.code[s.pc]? = some w) (hop : w.toNat / 256 % 16 = 8)
    (hv : s.code[s.pc + 1]? = some v) (hreg : s.regs[w.toNat / 16 % 16]? = some v) :
    ∃ i, fetch s = .ok i ∧ takesEqualityJump i s = true := by
  have hd : decode w (memRead (s.pc + 1) s) = .ok (.jmpeqw (decodeArg1 w) v) :=
    (congrArg (decode w) hv).trans (decode_jmpeqw v ((decodeOpcode_eq_iff w 8).mpr hop))
  exact ⟨_, fetch_of_decode hw hd, decide_eq_true ((regRead_decodeArg1 w s).trans hreg)⟩

/-- Settles O35: the CNDPC leaves its value in condpc, and the jump that the second step fetches goes there. -/
theorem cndpcIsSeenByTheNextJump : Obligations.CndpcIsSeenByTheNextJump := by
  intro s w w' x hr hw hd hw' hjump
  have hfirst : step s = .next (advance 1 (setCondpc x.toNat s)) := stepRunsTheDecodedInstruction s w (.cndpc x) hr hw hd
  obtain ⟨i, hf, htaken⟩ : ∃ i, fetch (advance 1 (setCondpc x.toNat s)) = .ok i ∧
      takesEqualityJump i (advance 1 (setCondpc x.toNat s)) = true := by
    obtain ⟨hop, hreg⟩ | ⟨hop, v, hv, hreg⟩ := hjump
    · exact fetch_takenJmpeq hw' hop hreg
    · exact fetch_takenJmpeqw hw' hop hv hreg
  have hsecond := (step_of_fetch (s := advance 1 (setCondpc x.toNat s)) hr hf).trans (exec_takenJump htaken)
  rw [runLoop_succ_next 1 hfirst, runLoop_succ_next 0 hsecond]
  rfl

/-! ### A run that goes on forever, and a run that ends (R126, R127) -/

/-- A step that leaves the state as it was is repeated for any budget. -/
theorem runLoop_of_step_self {s : State} (h : step s = .next s) (budget : Nat) :
    runLoop budget s = s ∧ stepsTaken budget s = budget := by
  induction budget with
  | zero => exact ⟨rfl, rfl⟩
  | succ b ih =>
    obtain ⟨hrun, htaken⟩ := ih
    exact ⟨(runLoop_succ_next b h).trans hrun, by rw [stepsTaken_succ_next b h, htaken]⟩

/-- Settles O36: the jump writes to pc the value it holds, so its step leaves the state as it was. -/
theorem jumpToItselfRunsForever : Obligations.JumpToItselfRunsForever := by
  intro s w hr hw hop hself
  have hf : fetch s = .ok (.jmp (decodeArg1 w)) := fetch_of_decode hw (decode_jmp _ ((decodeOpcode_eq_iff w 6).mpr hop))
  have htarget : (decodeArg1 w).toNat = s.pc := (decodeArg1_toNat w).trans hself
  refine runLoop_of_step_self ?_
  rw [step_of_fetch hr hf, exec_jmp, htarget]
  rfl

/-- Settles O38: each end state is what both budgets together give, in either order. -/
theorem runsEndInOneState : Obligations.RunsEndInOneState := by
  rintro s t u ⟨a, hat, ht⟩ ⟨b, hbu, hu⟩
  refine ⟨?_, fun budget => runLoop_stopped budget ht⟩
  calc
    t = runLoop b t := (runLoop_stopped b ht).symm
    _ = runLoop (a + b) s := by rw [runLoop_add, hat]
    _ = runLoop (b + a) s := by rw [Nat.add_comm]
    _ = runLoop a u := by rw [runLoop_add, hbu]
    _ = u := runLoop_stopped a hu

end Sys2Proof.Machine
